-- ==== Sys2Proof/Word.lean ====
section
/-! DEFINITION. The words of the bit codec block: spec/00_scope.md R6, R7; spec/30_encoding.md R80. -/

namespace Sys2Proof

/-- A word: 32 bits, bit 0 the least significant (R7; XLEN and MASK_W of R6). -/
abbrev Word := BitVec 32

/-- An octet: 8 bits, the unit of both octet streams (R7; OCTET of R6). -/
abbrev Octet := BitVec 8

/-- An operation code: OP_W of R6. -/
abbrev OpCode := BitVec 4

/-- A command word of format `CW68` (R80, R81). -/
abbrev CommandWord := BitVec 68

/-- A response word of format `RW36` (R80, R84). -/
abbrev ResponseWord := BitVec 36

end Sys2Proof
end

