-- ==== Sys2Proof/Syntax.lean ====
section
/-! DEFINITION. The five operations as terms: one constructor per row of spec/opcode_table.json
(spec/00_scope.md R2, spec/30_encoding.md R81, R82). -/

namespace Sys2Proof

/-- A command that selects an operation, with both operand words of `CW68`. The one-operand operations keep the
word `b` that they ignore (R83, R86), so that a command word is read back from its term without loss. -/
inductive Instr where
  /-- BITWIDTH, `op = 0x0` (R110): `a` is the value. -/
  | bitwidth (a b : Word)
  /-- FULLMASK, `op = 0x1` (R120): `a` is the width. -/
  | fullmask (a b : Word)
  /-- BYTECOUNT, `op = 0x2` (R130): `a` is `numberOfBits`. -/
  | bytecount (a b : Word)
  /-- ENCODE, `op = 0x3` (R140): `a` is `numberOfBits`, `b` the source extent in octets. -/
  | encode (a b : Word)
  /-- DECODE, `op = 0x4` (R160): `a` is `numberOfBits`, `b` the buffer size in octets. -/
  | decode (a b : Word)
deriving DecidableEq, Repr

/-- The operand word `a` of a command. -/
def Instr.a : Instr → Word
  | .bitwidth a _ => a
  | .fullmask a _ => a
  | .bytecount a _ => a
  | .encode a _ => a
  | .decode a _ => a

/-- The operand word `b` of a command. -/
def Instr.b : Instr → Word
  | .bitwidth _ b => b
  | .fullmask _ b => b
  | .bytecount _ b => b
  | .encode _ b => b
  | .decode _ b => b

end Sys2Proof
end

