-- ==== Sys2Proof/Decode.lean ====
section
/-! DEFINITION. The command word `CW68`: its fields, the decoder, the encoder (spec/30_encoding.md R80 to R83, R88). -/

namespace Sys2Proof

/-- The field `op`, `CW[67:64]` (R81). -/
def opField (cw : CommandWord) : OpCode := cw.extractLsb' 64 4

/-- The field `b`, `CW[63:32]` (R81). -/
def bField (cw : CommandWord) : Word := cw.extractLsb' 32 32

/-- The field `a`, `CW[31:0]` (R81). -/
def aField (cw : CommandWord) : Word := cw.extractLsb' 0 32

/-- `CW = {op, b, a}` (R81). -/
def commandWord (op : OpCode) (b a : Word) : CommandWord :=
  op.setWidth 68 <<< 64 ||| b.setWidth 68 <<< 32 ||| a.setWidth 68

/-- Why a command word selects no operation. -/
inductive DecodeError where
  /-- The operation code is one of the eleven reserved codes `0x5` to `0xF` (R88). -/
  | reservedOp (op : OpCode)
deriving DecidableEq, Repr

/-- The operation a command word selects (R82), or the reserved code it holds (R88). The `op` field alone selects. -/
def decode (cw : CommandWord) : Except DecodeError Instr :=
  match (opField cw).toNat with
  | 0 => .ok (.bitwidth (aField cw) (bField cw))
  | 1 => .ok (.fullmask (aField cw) (bField cw))
  | 2 => .ok (.bytecount (aField cw) (bField cw))
  | 3 => .ok (.encode (aField cw) (bField cw))
  | 4 => .ok (.decode (aField cw) (bField cw))
  | _ => .error (.reservedOp (opField cw))

/-- The operation code of an operation (R82). -/
def Instr.opcode : Instr → OpCode
  | .bitwidth _ _ => 0x0#4
  | .fullmask _ _ => 0x1#4
  | .bytecount _ _ => 0x2#4
  | .encode _ _ => 0x3#4
  | .decode _ _ => 0x4#4

/-- The command word of an instruction (R81, R82). -/
def encode (i : Instr) : CommandWord := commandWord i.opcode i.b i.a

/-- What the decoder reads from a row of the opcode table: bit 0 of `w` is bit 0 of the command word. A command
word travels on 68 parallel wires in one beat (R80), so a number that needs more wires is no command word. -/
def decodeTableWord (nbits w : Nat) : Option Instr :=
  let cw := w % 2 ^ nbits
  if cw < 2 ^ 68 then
    match decode (BitVec.ofNat 68 cw) with
    | .ok i => some i
    | .error _ => none
  else none

end Sys2Proof
end

