-- ==== Sys2Proof/Machine/State.lean ====
section
/-! DEFINITION. The state of the block as plain data, the ports, the steps' names, the outcomes' reasons, and reset
(spec/10_state.md R20 to R27, spec/60_exceptions.md R182, spec/70_reset_and_hazards.md R210 to R213). -/

namespace Sys2Proof.Machine

/-- The phases of R27. -/
inductive Phase where
  /-- No transaction in progress. -/
  | idle
  /-- A command has been taken and its response not yet. -/
  | resp
  /-- A success response of ENCODE or DECODE has been taken and octets remain to move. -/
  | data
deriving DecidableEq, Repr

/-- The errors of R182, the block's only exceptions. -/
inductive ErrorCode where
  /-- FULLMASK with a width outside 0 to 32 (R183). -/
  | invalidWidth
  /-- BYTECOUNT, ENCODE or DECODE with a negative bit count (R184). -/
  | invalidBitCount
  /-- A command whose operation code is reserved (R185). -/
  | illegalOp
  /-- DECODE with a buffer size other than `ByteCount(N)` (R186). -/
  | lengthMismatch
deriving DecidableEq, Repr

/-- How a decision phase ends (R28): `respond(v)` (R85) or `raise E` (R181). -/
inductive Decision where
  | respond (v : Word)
  | raise (e : ErrorCode)
deriving DecidableEq, Repr

/-- The transaction context, the block's only state (R26), with the widths of R26's table. Which fields mean
something depends on the phase; the others are dead. -/
structure Context where
  /-- The phase (R27). -/
  phase : Phase
  /-- RESP: the response word to send (R84). -/
  rw : ResponseWord
  /-- RESP: a data phase follows the response (R30). -/
  go : Bool
  /-- RESP with `go`, DATA: the bit count. -/
  N : BitVec 31
  /-- RESP with `go`, DATA: the source extent in octets. -/
  L : BitVec 32
  /-- RESP with `go`, DATA: `ByteCount(N)`. -/
  nbytes : BitVec 29
  /-- DATA: the number of OUT beats done. -/
  o : BitVec 29
  /-- DATA: the masked octet taken from SRC and not yet sent on OUT. -/
  hold : Option Octet
deriving DecidableEq, Repr

/-- What the requester drives on the block's input ports at one rising edge of `clk` (R25). -/
structure Pins where
  /-- `rst`, synchronous, active high (R24). -/
  rst : Bool
  /-- `cmd_valid`. -/
  cmdValid : Bool
  /-- `cmd_op`. -/
  cmdOp : OpCode
  /-- `cmd_b`. -/
  cmdB : Word
  /-- `cmd_a`. -/
  cmdA : Word
  /-- `rsp_ready`. -/
  rspReady : Bool
  /-- `src_valid`. -/
  srcValid : Bool
  /-- `src_data`. -/
  srcData : Octet
  /-- `out_ready`. -/
  outReady : Bool
deriving DecidableEq, Repr

/-- A requester that offers nothing, takes nothing and does not reset. -/
def Pins.quiet : Pins :=
  { rst := false, cmdValid := false, cmdOp := 0#4, cmdB := 0#32, cmdA := 0#32, rspReady := false,
    srcValid := false, srcData := 0#8, outReady := false }

/-- The block's output ports (R25). A payload output whose `valid` is 0 has no specified value and is `none`. -/
structure Outputs where
  /-- `cmd_ready`. -/
  cmdReady : Bool
  /-- `rsp_valid`. -/
  rspValid : Bool
  /-- `rsp_err`, `RW[35]`. -/
  rspErr : Option Bool
  /-- `rsp_code`, `RW[34:32]`. -/
  rspCode : Option (BitVec 3)
  /-- `rsp_data`, `RW[31:0]`. -/
  rspData : Option Word
  /-- `src_ready`. -/
  srcReady : Bool
  /-- `out_valid`. -/
  outValid : Bool
  /-- `out_data`. -/
  outData : Option Octet
  /-- `out_last`. -/
  outLast : Option Bool
deriving DecidableEq, Repr

/-- A beat: one transfer on one channel, with its payload (R24). -/
inductive Beat where
  /-- CMD, step ACCEPT (R28). -/
  | cmd (cw : CommandWord)
  /-- RSP, step RESPOND (R29). -/
  | rsp (rw : ResponseWord)
  /-- SRC, step TAKE (R32). -/
  | src (v : Octet)
  /-- OUT, step EMIT (R33): `out_data` and `out_last`. -/
  | out (v : Octet) (last : Bool)
deriving DecidableEq, Repr

/-- What a rising edge of `clk` is for the block. -/
inductive Edge where
  /-- `rst = 0` and no RESET since power was applied: the spec gives it no meaning (R213). -/
  | beforeReset
  /-- `rst = 1`: the step RESET, a beat on no channel (R24, R210). -/
  | reset
  /-- A beat on one channel. -/
  | beat (b : Beat)
  /-- No channel has both `valid` and `ready`: the block waits. -/
  | waiting
deriving DecidableEq, Repr

/-- The machine: the block's context and, as data, what the requester drives. -/
structure State where
  /-- The model's own: a RESET step has happened since power was applied (R213). -/
  resetSeen : Bool
  /-- The transaction context (R26). -/
  ctx : Context
  /-- The model's own: what the requester drives at the coming rising edges, the next edge first. -/
  inputs : List Pins
deriving DecidableEq, Repr

/-- Reasons to stop with a fault. There is none: the spec's errors are responses and "never a process-fatal
condition" (R180), and a requester that breaks a duty leaves the block waiting, "never faulted" (R221). Safe: no
step of the block is turned into a stop. -/
inductive Fault where
deriving DecidableEq, Repr

/-- Reasons to refuse. -/
inductive Refusal where
  /-- Raised by an arm of `exec` for an instruction that has no meaning in the model. No arm does. Safe. -/
  | notModelled (mnemonic : String)
  /-- Raised by `step` at a rising edge with `rst = 0` before the first RESET after power-up, whose effect the spec
  leaves unspecified (R213; spec/93_implementation_defined.md V5: such a run is refused). Safe. -/
  | beforeReset
deriving DecidableEq, Repr

/-- The outcome of an instruction or of a step. -/
abbrev Outcome := Host.Outcome State Fault Refusal

/-- The context after a RESET step: `phase` and `hold` as R210 and R211 state; the other fields are dead and
unspecified, zero being the model's choice (DESIGN CHOICE, unsafe: notes/assumptions/3.md). -/
def Context.reset : Context :=
  { phase := .idle, rw := 0#36, go := false, N := 0#31, L := 0#32, nbytes := 0#29, o := 0#29, hold := none }

/-- The machine right after a RESET step, with nothing offered by the requester yet (R210, R211, R214). -/
def State.reset : State := { resetSeen := true, ctx := Context.reset, inputs := [] }

/-- The machine after power is applied and before any RESET: its context is unspecified, so an argument (R213). -/
def State.powerUp (c : Context) (inputs : List Pins) : State := { resetSeen := false, ctx := c, inputs := inputs }

end Sys2Proof.Machine
end

