-- ==== Sys2Proof/Machine/Flags.lean ====
section
/-! DEFINITION. The status a command reports. The block has no flags (spec/10_state.md R22); what an operation says
of its success stands in its own response word `RW36` (spec/30_encoding.md R84, R85, spec/60_exceptions.md R181,
R182). -/

namespace Sys2Proof.Machine

/-- `code(E)` (R182). -/
def errorCode : ErrorCode → BitVec 3
  | .invalidWidth => 1#3
  | .invalidBitCount => 2#3
  | .illegalOp => 3#3
  | .lengthMismatch => 4#3

/-- `RW = {err, code, data}` (R84). -/
def responseWord (err : Bool) (code : BitVec 3) (data : Word) : ResponseWord :=
  (BitVec.ofBool err).setWidth 36 <<< 35 ||| code.setWidth 36 <<< 32 ||| data.setWidth 36

/-- `rsp_err`, `RW[35]` (R84). -/
def rspErr (rw : ResponseWord) : Bool := rw.getLsbD 35

/-- `rsp_code`, `RW[34:32]` (R84). -/
def rspCode (rw : ResponseWord) : BitVec 3 := rw.extractLsb' 32 3

/-- `rsp_data`, `RW[31:0]` (R84). -/
def rspData (rw : ResponseWord) : Word := rw.extractLsb' 0 32

/-- The response word of `respond(v)`: `{0, 0b000, v}` (R85). -/
def successWord (v : Word) : ResponseWord := responseWord false 0#3 v

/-- The response word of `raise E`: `{1, code(E), 0x00000000}` (R181). -/
def errorWord (e : ErrorCode) : ResponseWord := responseWord true (errorCode e) 0#32

/-- The response word in which a decision phase ends (R28). -/
def decisionWord : Decision → ResponseWord
  | .respond v => successWord v
  | .raise e => errorWord e

end Sys2Proof.Machine
end

