-- ==== Sys2Proof/Config.lean ====
section
/-! DEFINITION. The implementation parameters that are bounds (spec/00_scope.md R6). Each has one value: the spec
leaves no parameter open, so no constant here is free. The parameters that are widths (XLEN, MASK_W, OCTET, OP_W)
are the types of Sys2Proof/Word.lean, and `commands in flight = 1` is the shape of the context (one context). -/

namespace Sys2Proof.Config

/-- `N_MAX`, the largest legal bit count (R6, R83). -/
def nMax : Nat := 2 ^ 31 - 1

/-- `NBYTES_MAX`, the largest byte count (R6, R131). -/
def nbytesMax : Nat := 2 ^ 28

/-- `L_MAX`, the largest source extent in octets (R6, R83). -/
def lMax : Nat := 2 ^ 32 - 1

/-- `IMED_W`, the least width of the FullMask intermediate (R6, R122). -/
abbrev imedW : Nat := 33

end Sys2Proof.Config
end

