-- ==== Sys2Proof/Machine/Operands.lean ====
section
/-! DEFINITION. The readings of an operand word and the block's functions on it: `u32`, `s32`, `clz32`, `BitWidth`,
`FullMask`, `ByteCount`, `KeepMask` (spec/00_scope.md R9 to R11, spec/20_memory.md R58, spec/40_bitwidth.md R111,
spec/41_fullmask.md R121, spec/42_bytecount.md R131). Arithmetic is on unbounded integers (R10). -/

namespace Sys2Proof.Machine

/-- `u32(w)`, the unsigned reading (R9). -/
def u32 (w : Word) : Nat := w.toNat

/-- `s32(w)`, the two's-complement reading: `u32(w) - 2^32` when bit 31 is set (R9). -/
def s32 (w : Word) : Int := if w.getLsbD 31 then (u32 w : Int) - 2 ^ 32 else u32 w

/-- The number of consecutive 0 bits of `w` from bit `n - 1` down. -/
def zerosBelow (w : Word) : Nat → Nat
  | 0 => 0
  | n + 1 => if w.getLsbD n then 0 else zerosBelow w n + 1

/-- `clz32(w)`, count leading zeros: the zeros from bit 31 down; 32 for the word 0 (R11). -/
def clz32 (w : Word) : Nat := zerosBelow w 32

/-- One more than the largest index below `n` at which `w` has a 1, or 0. -/
def widthBelow (w : Word) : Nat → Nat
  | 0 => 0
  | n + 1 => if w.getLsbD n then n + 1 else widthBelow w n

/-- `BitWidth(w)`: 0 for the word 0, else the largest index of a 1 bit plus one (R111). -/
def bitWidth (w : Word) : Nat := widthBelow w 32

/-- `FullMask(k)`, for `k` in 0 to 32 (R121): `(1 << k) - 1` on unbounded integers, bits 31 to 0. No step uses it
outside 0 to 32 (notes/assumptions/9.md). -/
def fullMask (k : Nat) : Word := BitVec.ofNat 32 (2 ^ k - 1)

/-- `ByteCount(N)`, the third form of R131: `(N >> 3) + (1 if N % 8 ≠ 0 else 0)`. -/
def byteCount (N : Nat) : Nat := N / 8 + if N % 8 = 0 then 0 else 1

/-- `KeepMask(j, N)`, for `N ≥ 1` and `j < ByteCount(N)`: what is ANDed onto octet `j` (R58). No step uses it
elsewhere (notes/assumptions/9.md). -/
def keepMask (j N : Nat) : Octet :=
  if j = byteCount N - 1 ∧ N % 8 ≠ 0 then (fullMask (N % 8)).setWidth 8 else 0xFF#8

end Sys2Proof.Machine
end

