-- ==== Sys2Proof/Machine/Ops.lean ====
section
/-! DEFINITION. The operations every step is made of: the ports and the beats (spec/10_state.md R24, R25), how a
decision phase ends, in success or in an error (R28, spec/60_exceptions.md R181), and the steps RESPOND, TAKE, EMIT
(R29, R32, R33) and RESET (spec/70_reset_and_hazards.md R210). -/

namespace Sys2Proof.Machine

/-! ### What a rising edge samples -/

/-- The input ports at the coming rising edge (R24, R25). Past the end of `inputs` the requester drives nothing
(DESIGN CHOICE: notes/assumptions/1.md). -/
def State.pins (s : State) : Pins := s.inputs.headD Pins.quiet

/-- The rising edge passes and the block's context stays. -/
def State.tick (s : State) : State := { s with inputs := s.inputs.tail }

/-- The command word on the CMD ports (R81). -/
def Pins.command (p : Pins) : CommandWord := commandWord p.cmdOp p.cmdB p.cmdA

/-- The ports `p` with the command `cw` on offer and `rst` low. -/
def offerOver (p : Pins) (cw : CommandWord) : Pins :=
  { p with rst := false, cmdValid := true, cmdOp := opField cw, cmdB := bField cw, cmdA := aField cw }

/-! ### The outputs, functions of the context alone (R25) -/

/-- Step TAKE is enabled (R32): DATA, `hold = none` and `o < min(L, nbytes)`. -/
def Context.takeEnabled (c : Context) : Bool :=
  decide (c.phase = .data) && c.hold.isNone && decide (c.o.toNat < min c.L.toNat c.nbytes.toNat)

/-- The octet that step EMIT offers, or `none` where EMIT is not enabled (R33): the held octet, or zero padding where
nothing is held and `o ≥ L`. -/
def Context.emitOctet (c : Context) : Option Octet :=
  if c.phase = .data ∧ c.o.toNat < c.nbytes.toNat then
    match c.hold with
    | some v => some v
    | none => if c.L.toNat ≤ c.o.toNat then some 0x00#8 else none
  else none

/-- The octet to emit is `out[nbytes - 1]` (R33). -/
def Context.isLast (c : Context) : Bool := decide (c.o.toNat + 1 = c.nbytes.toNat)

/-- The output ports (R25, R27). -/
def Context.outputs (c : Context) : Outputs :=
  { cmdReady := decide (c.phase = .idle)
    rspValid := decide (c.phase = .resp)
    rspErr := if c.phase = .resp then some (rspErr c.rw) else none
    rspCode := if c.phase = .resp then some (rspCode c.rw) else none
    rspData := if c.phase = .resp then some (rspData c.rw) else none
    srcReady := c.takeEnabled
    outValid := c.emitOctet.isSome
    outData := c.emitOctet
    outLast := c.emitOctet.map fun _ => c.isLast }

/-- The output ports as the requester may read them: before the first RESET they "may be anything" (R213). -/
def State.outputs (s : State) : Option Outputs := if s.resetSeen then some s.ctx.outputs else none

/-! ### Beats: `valid` and `ready` at a rising edge with `rst = 0` (R24) -/

/-- The CMD beat at this edge, if any. -/
def cmdBeat (c : Context) (p : Pins) : Option Beat :=
  if p.cmdValid && c.outputs.cmdReady then some (.cmd p.command) else none

/-- The RSP beat at this edge, if any. -/
def rspBeat (c : Context) (p : Pins) : Option Beat :=
  if c.outputs.rspValid && p.rspReady then some (.rsp c.rw) else none

/-- The SRC beat at this edge, if any. -/
def srcBeat (c : Context) (p : Pins) : Option Beat :=
  if p.srcValid && c.outputs.srcReady then some (.src p.srcData) else none

/-- The OUT beat at this edge, if any. -/
def outBeat (c : Context) (p : Pins) : Option Beat :=
  match c.emitOctet with
  | some v => if p.outReady then some (.out v c.isLast) else none
  | none => none

/-- The beat at this edge, over the four channels; at most one of them has one (R223). -/
def beatAt (c : Context) (p : Pins) : Option Beat :=
  cmdBeat c p <|> rspBeat c p <|> srcBeat c p <|> outBeat c p

/-- What the coming rising edge is (R24, R210, R213). -/
def State.edge (s : State) : Edge :=
  if s.pins.rst then .reset
  else if s.resetSeen then
    match beatAt s.ctx s.pins with
    | some b => .beat b
    | none => .waiting
  else .beforeReset

/-! ### How step ACCEPT ends (R28) -/

/-- `respond(v)` without a data phase: the response word `{0, 0b000, v}` waits in RESP (R28, R85). -/
def State.respond (s : State) (v : Word) : State :=
  { s.tick with ctx := { s.ctx with phase := .resp, rw := successWord v, go := false } }

/-- `respond(v)` of ENCODE and DECODE with operand words `a` and `b`: a data phase follows when `v ≠ 0`, and only
then are `N`, `L` and `nbytes` written (R28, R30). -/
def State.respondData (s : State) (a b v : Word) : State :=
  if v = 0#32 then s.respond v
  else
    { s.tick with
      ctx := { s.ctx with
        phase := .resp, rw := successWord v, go := true,
        N := a.setWidth 31, L := b, nbytes := v.setWidth 29 } }

/-- Taking an exception: `raise E` ends the command in the error response `{1, code(E), 0}` with no data phase
(R181). Nothing is saved and no control is transferred (R190), so there is no return from it: the RSP beat of the
error response leaves the block in IDLE like any other (R29, R191). -/
def State.raise (s : State) (e : ErrorCode) : State :=
  { s.tick with ctx := { s.ctx with phase := .resp, rw := errorWord e, go := false } }

/-- The end of the decision phase of an operation without a data phase. -/
def State.conclude (s : State) : Decision → State
  | .respond v => s.respond v
  | .raise e => s.raise e

/-- The end of the decision phase of ENCODE and DECODE. -/
def State.concludeData (s : State) (a b : Word) : Decision → State
  | .respond v => s.respondData a b v
  | .raise e => s.raise e

/-! ### The steps that follow ACCEPT, and RESET -/

/-- Step RESPOND (R29). -/
def State.respondStep (s : State) : State :=
  { s.tick with
    ctx := if s.ctx.go then { s.ctx with phase := .data, o := 0#29, hold := none } else { s.ctx with phase := .idle } }

/-- Step TAKE of the source octet `v` (R32): it is masked when it is taken. -/
def State.takeStep (s : State) (v : Octet) : State :=
  { s.tick with ctx := { s.ctx with hold := some (v &&& keepMask s.ctx.o.toNat s.ctx.N.toNat) } }

/-- Step EMIT (R33). -/
def State.emitStep (s : State) : State :=
  { s.tick with
    ctx := { s.ctx with hold := none, o := s.ctx.o + 1#29, phase := if s.ctx.isLast then .idle else s.ctx.phase } }

/-- Step RESET (R210): whatever the phase. What becomes dead takes the values of `Context.reset`
(notes/assumptions/5.md). -/
def State.resetStep (s : State) : State := { s.tick with resetSeen := true, ctx := Context.reset }

end Sys2Proof.Machine
end

