-- ==== Sys2Proof/Machine/Codec.lean ====
section
/-! DEFINITION. The operations with a data phase: ENCODE (spec/43_encode.md R140) and DECODE (spec/44_decode.md
R160). Their decision phase is the instruction's step ACCEPT; the octets move in the steps TAKE and EMIT of
Sys2Proof/Machine/Ops.lean (spec/10_state.md R30 to R34), which are the same for both (R31). -/

namespace Sys2Proof.Machine

/-- The decision phase of ENCODE: InvalidBitCount for a negative count, and every extent is legal (R140, R141). -/
def decideEncode (a : Word) : Decision :=
  if a.getLsbD 31 then .raise .invalidBitCount else .respond (BitVec.ofNat 32 (byteCount (u32 a)))

/-- ENCODE (R140). -/
def execEncode (a b : Word) (s : State) : Outcome := .next (s.concludeData a b (decideEncode a))

/-- The decision phase of DECODE: InvalidBitCount first, then LengthMismatch when the buffer size is not
`ByteCount(N)` (R160, R161, R188). -/
def decideDecode (a b : Word) : Decision :=
  if a.getLsbD 31 then .raise .invalidBitCount
  else if u32 b ≠ byteCount (u32 a) then .raise .lengthMismatch
  else .respond (BitVec.ofNat 32 (byteCount (u32 a)))

/-- DECODE (R160). -/
def execDecode (a b : Word) (s : State) : Outcome := .next (s.concludeData a b (decideDecode a b))

end Sys2Proof.Machine
end

