-- ==== Sys2Proof/Machine/Leaf.lean ====
section
/-! DEFINITION. The operations without a data phase: BITWIDTH (spec/40_bitwidth.md R110), FULLMASK
(spec/41_fullmask.md R120), BYTECOUNT (spec/42_bytecount.md R130). None of them reads `b` (spec/30_encoding.md R86). -/

namespace Sys2Proof.Machine

/-- The decision phase of BITWIDTH: total, it raises nothing (R110, R114). -/
def decideBitwidth (a : Word) : Decision := .respond (BitVec.ofNat 32 (bitWidth a))

/-- BITWIDTH (R110). -/
def execBitwidth (a : Word) (s : State) : Outcome := .next (s.conclude (decideBitwidth a))

/-- The decision phase of FULLMASK: InvalidWidth outside 0 to 32 (R120, R125). -/
def decideFullmask (a : Word) : Decision :=
  if u32 a > 32 then .raise .invalidWidth else .respond (fullMask (u32 a))

/-- FULLMASK (R120). -/
def execFullmask (a : Word) (s : State) : Outcome := .next (s.conclude (decideFullmask a))

/-- The decision phase of BYTECOUNT: InvalidBitCount for a negative count (R130). -/
def decideBytecount (a : Word) : Decision :=
  if a.getLsbD 31 then .raise .invalidBitCount else .respond (BitVec.ofNat 32 (byteCount (u32 a)))

/-- BYTECOUNT (R130). -/
def execBytecount (a : Word) (s : State) : Outcome := .next (s.conclude (decideBytecount a))

end Sys2Proof.Machine
end

