-- ==== Sys2Proof/Machine/Dispatch.lean ====
section
/-! DEFINITION. One arm per operation: step ACCEPT of a command that selects an operation (spec/10_state.md R28). -/

namespace Sys2Proof.Machine

def exec (i : Instr) (s : State) : Host.Outcome State Fault Refusal :=
  match i with
  | .bitwidth a _ => Sys2Proof.Machine.execBitwidth a s
  | .fullmask a _ => Sys2Proof.Machine.execFullmask a s
  | .bytecount a _ => Sys2Proof.Machine.execBytecount a s
  | .encode a b => Sys2Proof.Machine.execEncode a b s
  | .decode a b => Sys2Proof.Machine.execDecode a b s

end Sys2Proof.Machine
end

