-- ==== Sys2Proof/Machine/Accept.lean ====
section
/-! DEFINITION. Step ACCEPT: what a CMD beat does with the command word it carries (spec/10_state.md R28). -/

namespace Sys2Proof.Machine

/-- A CMD beat carrying `cw`: the decision phase of the operation that `cw` selects (R28), or IllegalOp where it holds
a reserved code, whatever its operands (R88, R185). -/
def acceptCommand (cw : CommandWord) (s : State) : Outcome :=
  match decode cw with
  | .ok i => exec i s
  | .error _ => .next (s.raise .illegalOp)

end Sys2Proof.Machine
end

