-- ==== Sys2Proof/Machine/Step.lean ====
section
/-! DEFINITION. One step of the machine: one rising edge of `clk` (spec/10_state.md R24, R27). -/

namespace Sys2Proof.Machine

/-- One rising edge of `clk`: a RESET, one beat, or an edge at which the block waits (R24, R27, R210, R221). An edge
before the first RESET has no meaning (R213). -/
def step (s : State) : Host.Outcome State Fault Refusal :=
  match s.edge with
  | .beforeReset => .refused .beforeReset
  | .reset => .next s.resetStep
  | .waiting => .next s.tick
  | .beat (.cmd cw) => acceptCommand cw s
  | .beat (.rsp _) => .next s.respondStep
  | .beat (.src v) => .next (s.takeStep v)
  | .beat (.out _ _) => .next s.emitStep

/-- `s` with the command word whose bits are `w` on offer at the next rising edge: the requester raises `cmd_valid`,
the block is past its first RESET and in IDLE, and `rst` is low. `nbits` only says how many bits of `w` the table
gives; the bits above are 0. -/
def State.withFetchWord (s : State) (nbits w : Nat) : State :=
  { s with
    resetSeen := true
    ctx := { s.ctx with phase := .idle }
    inputs := offerOver s.pins (BitVec.ofNat 68 (w % 2 ^ nbits)) :: s.inputs.tail }

end Sys2Proof.Machine
end

