-- ==== Sys2Proof/Machine/Transaction.lean ====
section
/-! DEFINITION. The transaction-level meaning `Exec` of a command (spec/10_state.md R36), written from the operation
rules apart from the steps, and the fixed order of beats that delivers it (R29, R31, R34). That the steps deliver it
is a statement for the provers, not a definition. -/

namespace Sys2Proof.Machine

/-- The decision phase that the code `op` selects on the operand words (R28, R82; R185 for a reserved code). -/
def decision (op : OpCode) (a b : Word) : Decision :=
  match op.toNat with
  | 0 => decideBitwidth a
  | 1 => decideFullmask a
  | 2 => decideBytecount a
  | 3 => decideEncode a
  | 4 => decideDecode a b
  | _ => .raise .illegalOp

/-- `src[j]` of a source given as the list of its octets. An index past the list is an octet the requester does not
supply; it reads as `0x00` here (notes/assumptions/16.md). -/
def srcOctet (src : List Octet) (j : Nat) : Octet := src.getD j 0x00#8

/-- The octet `out[j] = (src[j] if j < L else 0x00) & KeepMask(j, N)` (R143; R163 is the case `L = nbytes`). -/
def outOctet (N L : Nat) (src : List Octet) (j : Nat) : Octet :=
  (if j < L then srcOctet src j else 0x00#8) &&& keepMask j N

/-- The data phase of R140 and R160 as a function: `out[0]`, ..., `out[ByteCount(N) - 1]`. -/
def outOctets (N L : Nat) (src : List Octet) : List Octet := (List.range (byteCount N)).map (outOctet N L src)

/-- `Exec(op, a, b, src) = (RW, out)` (R36). -/
def transact (op : OpCode) (a b : Word) (src : List Octet) : ResponseWord × List Octet :=
  match decision op a b with
  | .raise e => (errorWord e, [])
  | .respond v => (successWord v, if op = 3#4 ∨ op = 4#4 then outOctets (u32 a) (u32 b) src else [])

/-- `SrcBit(i)`, the value the source gives to bit index `i` (R56). -/
def srcBit (L : Nat) (src : List Octet) (i : Nat) : Bool :=
  if i / 8 < L then (srcOctet src (i / 8)).getLsbD (i % 8) else false

/-- `OutBit(i)`, the value an output gives to bit index `i` (R57), for `i < 8 * nbytes`. R57 gives no value from there
on; a bit of an octet past the end of the list reads as 0 here (DESIGN CHOICE: notes/assumptions/19.md). -/
def outBit (out : List Octet) (i : Nat) : Bool := (out.getD (i / 8) 0x00#8).getLsbD (i % 8)

/-- The beats of a data phase with extent `L`, source `src` and output `out`, in the one order of R34: for each `j`,
TAKE of `src[j]` when `j < L`, then EMIT of `out[j]`, the last one marked. -/
def dataBeats (L : Nat) (src out : List Octet) : List Beat :=
  (List.range out.length).flatMap fun j =>
    (if j < L then [.src (srcOctet src j)] else []) ++ [.out (out.getD j 0x00#8) (decide (j + 1 = out.length))]

/-- The beats of the transaction of the command word `cw` with the source `src`: CMD, RSP, then the data beats
(R29, R34, R36). -/
def transactionBeats (cw : CommandWord) (src : List Octet) : List Beat :=
  let r := transact (opField cw) (aField cw) (bField cw) src
  .cmd cw :: .rsp r.1 :: dataBeats (u32 (bField cw)) src r.2

end Sys2Proof.Machine
end

