-- ==== Sys2Proof/Safety.lean ====
section
/-! DEFINITION. The terms in which statements speak of runs: the beats of a run, what of the context is live
(spec/10_state.md R26), the invariant of reachable contexts (R26, R34, spec/30_encoding.md R84), how many beats a
transaction still needs (spec/70_reset_and_hazards.md R227), and the requester's duties (R215 to R220). -/

namespace Sys2Proof.Machine

/-! ### Runs -/

/-- `k` rising edges from `s`; it is `Host.Core.run` of the machine (`run_eq_host_run`), said of `State` itself. -/
def run : Nat → State → Outcome
  | 0, s => .next s
  | k + 1, s =>
    match step s with
    | .next s' => run k s'
    | .fault r => .fault r
    | .refused r => .refused r

/-- The beats of the first `k` rising edges from `s`, in order (R223). -/
def beats : Nat → State → List Beat
  | 0, _ => []
  | k + 1, s =>
    (match s.edge with
      | .beat b => [b]
      | _ => []) ++
    match step s with
    | .next s' => beats k s'
    | _ => []

/-- The source octets that a list of beats took, in order (R53). -/
def takenOctets : List Beat → List Octet
  | [] => []
  | .src v :: bs => v :: takenOctets bs
  | .cmd _ :: bs => takenOctets bs
  | .rsp _ :: bs => takenOctets bs
  | .out _ _ :: bs => takenOctets bs

/-- The output octets that a list of beats sent, in order (R54). -/
def sentOctets : List Beat → List Octet
  | [] => []
  | .out v _ :: bs => v :: sentOctets bs
  | .cmd _ :: bs => sentOctets bs
  | .rsp _ :: bs => sentOctets bs
  | .src _ :: bs => sentOctets bs

/-- The beat is a CMD beat. -/
def Beat.isCmd : Beat → Bool
  | .cmd _ => true
  | .rsp _ => false
  | .src _ => false
  | .out _ _ => false

/-! ### What of a context is live -/

/-- The context as the sum type of R26, dead fields left out; in RESP, `N`, `L` and `nbytes` are live only when a
data phase follows. -/
inductive View where
  | idle
  | resp (rw : ResponseWord) (toMove : Option (BitVec 31 × BitVec 32 × BitVec 29))
  | data (N : BitVec 31) (L : BitVec 32) (nbytes o : BitVec 29) (hold : Option Octet)
deriving DecidableEq, Repr

/-- What is live in a context (R26). -/
def Context.view (c : Context) : View :=
  match c.phase with
  | .idle => .idle
  | .resp => .resp c.rw (if c.go then some (c.N, c.L, c.nbytes) else none)
  | .data => .data c.N c.L c.nbytes c.o c.hold

/-! ### The invariant of reachable contexts -/

/-- A response word is one the block can send (R84, R182): `err = 1` exactly when `code ≠ 0`, the codes 5 to 7 are
never produced, and a rejection carries the data word 0. -/
abbrev responseOk (rw : ResponseWord) : Prop :=
  (rspErr rw = true ↔ rspCode rw ≠ 0#3) ∧ (rspCode rw).toNat ≤ 4 ∧ (rspErr rw = true → rspData rw = 0#32)

/-- What a context in RESP satisfies: a possible response; and where a data phase follows, it is a success response
that announces `nbytes = ByteCount(N)`, not 0 (R28, R30). -/
abbrev Context.RespInv (c : Context) : Prop :=
  responseOk c.rw ∧
    (c.go = true →
      c.rw = successWord (c.nbytes.setWidth 32) ∧ c.nbytes.toNat = byteCount c.N.toNat ∧ 0 < c.nbytes.toNat)

/-- What a context in DATA satisfies: `nbytes = ByteCount(N)`, `o < nbytes`, and a held octet is a masked octet of an
index below `L` (R26, R32, R34). -/
abbrev Context.DataInv (c : Context) : Prop :=
  c.nbytes.toNat = byteCount c.N.toNat ∧ c.o.toNat < c.nbytes.toNat ∧
    match c.hold with
    | none => True
    | some v => c.o.toNat < c.L.toNat ∧ v &&& keepMask c.o.toNat c.N.toNat = v

/-- The invariant of reachable contexts. -/
def Context.Inv (c : Context) : Prop :=
  match c.phase with
  | .idle => True
  | .resp => c.RespInv
  | .data => c.DataInv

/-! ### Progress -/

/-- The number of beats the transaction in progress still needs (R34, R227). -/
def Context.remaining (c : Context) : Nat :=
  match c.phase with
  | .idle => 0
  | .resp => 1 + if c.go then min c.L.toNat c.nbytes.toNat + c.nbytes.toNat else 0
  | .data =>
    (c.nbytes.toNat - c.o.toNat) + (min c.L.toNat c.nbytes.toNat - c.o.toNat) - if c.hold.isSome then 1 else 0

/-- The requester keeps every channel going at this edge, as R215 lets it, and does not reset. -/
def Pins.willing (p : Pins) : Bool := !p.rst && p.rspReady && p.srcValid && p.outReady

/-- The sample answers the block's side of the beat `b`, so that `b` happens at an edge where the block is ready
for it. -/
def Pins.answers (p : Pins) : Beat → Bool
  | .cmd cw => !p.rst && p.cmdValid && decide (p.command = cw)
  | .rsp _ => !p.rst && p.rspReady
  | .src v => !p.rst && p.srcValid && decide (p.srcData = v)
  | .out _ _ => !p.rst && p.outReady

/-- The sample lets the block wait for the beat `b`; the ports of the other channels carry anything. -/
def Pins.declines (p : Pins) : Beat → Bool
  | .cmd _ => !p.rst && !p.cmdValid
  | .rsp _ => !p.rst && !p.rspReady
  | .src _ => !p.rst && !p.srcValid
  | .out _ _ => !p.rst && !p.outReady

/-- The samples serve the beats in order, with any number of waiting edges before each of them: a requester that
offers these commands and source octets and takes every response and output octet in the end (R216 to R219). -/
def serves : List Beat → List Pins → Bool
  | [], ps => ps.isEmpty
  | _ :: _, [] => false
  | b :: bs, p :: ps => if p.answers b then serves bs ps else p.declines b && serves (b :: bs) ps

/-! ### The requester's duties, edge by edge -/

/-- The input ports at the edge after the coming one. -/
def State.nextPins (s : State) : Pins := s.tick.pins

/-- The requester has an octet on offer and it is not taken at this edge, which is no reset: the offer stands. -/
def State.srcStands (s : State) : Bool :=
  !s.pins.rst && s.pins.srcValid && (srcBeat s.ctx s.pins).isNone

/-- The duty on CMD at this edge (R216): an offer not taken stays, its word unchanged. -/
def State.cmdDuty (s : State) : Bool :=
  if !s.pins.rst && s.pins.cmdValid && (cmdBeat s.ctx s.pins).isNone then
    s.nextPins.cmdValid && decide (s.nextPins.command = s.pins.command)
  else true

/-- The duty on SRC at this edge (R218): an octet is on offer only in a data phase that has fewer than
`min(L, nbytes)` octets taken so far, and an offer not taken stays, its octet unchanged. -/
def State.srcDuty (s : State) : Bool :=
  (!s.pins.srcValid ||
    decide (s.ctx.phase = .data ∧
      s.ctx.o.toNat + (if s.ctx.hold.isSome then 1 else 0) < min s.ctx.L.toNat s.ctx.nbytes.toNat)) &&
  (!s.srcStands || (s.nextPins.srcValid && decide (s.nextPins.srcData = s.pins.srcData)))

/-- The duty on SRC is kept at the first `k` edges. -/
def keepsSrcDuty : Nat → State → Bool
  | 0, _ => true
  | k + 1, s =>
    s.srcDuty &&
      match step s with
      | .next s' => keepsSrcDuty k s'
      | _ => true

/-- The octets that the requester begins to offer on SRC during the first `k` edges, where `standing` says that the
offer seen at the first edge began before it. -/
def offeredOctets (standing : Bool) : Nat → State → List Octet
  | 0, _ => []
  | k + 1, s =>
    (if s.pins.srcValid && !standing then [s.pins.srcData] else []) ++
    match step s with
    | .next s' => offeredOctets s.srcStands k s'
    | _ => []

end Sys2Proof.Machine
end

