-- ==== Sys2Proof/WellFormed.lean ====
section
/-! DEFINITION. The checks on a command: on its word (spec/30_encoding.md R82, R88) and on its operands (R83). A
command that fails one is not outside the model: the block answers it with the error the check names. Every operand
word has an encoding (R83, R86), so every term of `Instr` is encoded and decoded, well-formed or not. -/

namespace Sys2Proof

/-- The word selects an operation: its code is not reserved (R82, R88). A word that fails gets IllegalOp. -/
def wellFormedWord (cw : CommandWord) : Bool := decide ((opField cw).toNat ≤ 4)

/-- The operands are in the legal range of R83: a width of 0 to 32, a count that is not negative, and for DECODE a
buffer of `ByteCount(N)` octets. A command that fails gets InvalidWidth, InvalidBitCount or LengthMismatch. -/
def Instr.wellFormed : Instr → Bool
  | .bitwidth _ _ => true
  | .fullmask a _ => decide (0 ≤ Machine.s32 a ∧ Machine.s32 a ≤ 32)
  | .bytecount a _ => decide (0 ≤ Machine.s32 a)
  | .encode a _ => decide (0 ≤ Machine.s32 a)
  | .decode a b => decide (0 ≤ Machine.s32 a ∧ Machine.u32 b = Machine.byteCount (Machine.u32 a))

end Sys2Proof
end

