-- ==== Sys2Proof/Certificates/Slice0/Obligations.lean ====
section
/-! DEFINITION. The statements for the provers. Rule numbers are those of spec/. -/

open Sys2Proof Sys2Proof.Machine

/-! ### The words and the functions -/

/-- R11, R112: `clz32` counts the zeros from bit 31 down, is `31 - k` for the highest set bit `k` and 32 for the
word 0, and `BitWidth(w) = 32 - clz32(w)`. -/
def Obligations.BitWidthFromLeadingZeros : Prop :=
  clz32 0 = 32 ∧ bitWidth 0 = 0 ∧
  (∀ w k, k < 32 → w.getLsbD k = true → (∀ i, k < i → i < 32 → w.getLsbD i = false) → clz32 w = 31 - k) ∧
  (∀ w i, i < clz32 w → w.getLsbD (31 - i) = false) ∧
  (∀ w, clz32 w < 32 → w.getLsbD (31 - clz32 w) = true) ∧
  ∀ w, clz32 w ≤ 32 ∧ bitWidth w = 32 - clz32 w

/-- R111: `BitWidth` is 0 on the word 0, one more than the largest index of a 1 bit elsewhere, `floor(log2) + 1` on
every other word, and 32 on every word with bit 31 set. -/
def Obligations.BitWidthIsHighestSetBitPlusOne : Prop :=
  bitWidth 0 = 0 ∧
  (∀ w k, k < 32 → w.getLsbD k = true → (∀ i, k < i → i < 32 → w.getLsbD i = false) → bitWidth w = k + 1) ∧
  (∀ w, w ≠ 0 → bitWidth w = Nat.log2 (u32 w) + 1) ∧
  ∀ w, w.getLsbD 31 = true → bitWidth w = 32

/-- R113: `BitWidth` bits suffice and one fewer do not; the mask of that width bounds the value; `BitWidth` undoes
`FullMask`; and `BitWidth` is monotone. -/
def Obligations.BitWidthBoundsItsValue : Prop :=
  (∀ w, 1 ≤ u32 w → 2 ^ (bitWidth w - 1) ≤ u32 w ∧ u32 w < 2 ^ bitWidth w) ∧
  (∀ w, u32 w = 0 → bitWidth w = 0) ∧
  (∀ w, w.getLsbD 31 = true → bitWidth w = 32) ∧
  (∀ w, u32 w ≤ u32 (fullMask (bitWidth w))) ∧
  (∀ k, k ≤ 32 → bitWidth (fullMask k) = k) ∧
  ∀ v w, u32 v ≤ u32 w → bitWidth v ≤ bitWidth w

/-- R121, R123: bit `i` of `FullMask(k)` is 1 exactly when `i < k`; its unsigned value is `2^k - 1`; it has `k` bits
set; and `FullMask(32)` is all ones, -1 as a signed word. -/
def Obligations.FullMaskHasExactlyTheLowBits : Prop :=
  (∀ k, k ≤ 32 →
    u32 (fullMask k) = 2 ^ k - 1 ∧
    (∀ i, i < 32 → (fullMask k).getLsbD i = decide (i < k)) ∧
    (List.range 32).countP (fun i => (fullMask k).getLsbD i) = k) ∧
  fullMask 32 = 0xFFFFFFFF#32 ∧ s32 (fullMask 32) = -1

/-- R124: on the unsigned reading `FullMask` is strictly increasing, on the signed reading its last step falls, and
the AND of two masks is the mask of the smaller width. -/
def Obligations.FullMaskIsStrictlyIncreasing : Prop :=
  (∀ k, k ≤ 31 → u32 (fullMask k) < u32 (fullMask (k + 1))) ∧
  s32 (fullMask 31) = 2147483647 ∧ s32 (fullMask 32) = -1 ∧
  ∀ j k, j ≤ 32 → k ≤ 32 → fullMask j &&& fullMask k = fullMask (min j k)

/-- spec/41_fullmask.md section 2: a 33-bit intermediate, narrowed to 32 bits, gives `FullMask` at all 33 widths. -/
def Obligations.FullMaskThrough33BitIntermediate : Prop :=
  ∀ k, k ≤ 32 → ((BitVec.ofNat Config.imedW 1 <<< k) - BitVec.ofNat Config.imedW 1).setWidth 32 = fullMask k

/-- R131: the three forms of `ByteCount` are equal for every `N`, and are the ceiling of `N / 8`; on the legal counts
the result is at most `2^28`. -/
def Obligations.ByteCountIsCeilingOfEighth : Prop :=
  (∀ N : Nat, byteCount N = ⌈(N : ℚ) / 8⌉₊ ∧ byteCount N = (N + 7) / 8 ∧
    byteCount N = (N >>> 3) + (if N % 8 ≠ 0 then 1 else 0)) ∧
  ∀ N : Nat, N ≤ Config.nMax → byteCount N ≤ Config.nbytesMax

/-- R132: adding in 32 unsigned bits does not wrap on a legal count, where a signed 32-bit adder would overflow on
exactly the counts from `2^31 - 7`; the results there are as the rule lists them. -/
def Obligations.ByteCountDoesNotWrap : Prop :=
  (∀ a : Word, a.getLsbD 31 = false →
    u32 a + 7 ≤ 2 ^ 31 + 6 ∧ ((a + 7#32) >>> 3).toNat = byteCount (u32 a) ∧
    ((a + 7#32).getLsbD 31 = true ↔ 2 ^ 31 - 7 ≤ u32 a)) ∧
  (∀ N, 0x7FFFFFF9 ≤ N → N ≤ 0x7FFFFFFF → byteCount N = 0x10000000) ∧
  byteCount 0x7FFFFFF8 = 0x0FFFFFFF

/-- R133: the laws of `ByteCount` and the concrete values. -/
def Obligations.ByteCountLaws : Prop :=
  (∀ N : Nat, byteCount N = ⌈(N : ℚ) / 8⌉₊) ∧
  (byteCount 0 = 0 ∧ byteCount 1 = 1 ∧ byteCount 7 = 1 ∧ byteCount 8 = 1 ∧ byteCount 9 = 2) ∧
  (∀ N, 1 ≤ N → 8 * byteCount N ≤ N + 7 ∧ N ≤ 8 * byteCount N) ∧
  (∀ M N, M ≤ N → byteCount M ≤ byteCount N) ∧
  ∀ N, byteCount (N + 8) = byteCount N + 1

/-- R58: `KeepMask` on every octet of a sequence of `N ≥ 1` bits, with the table of masks on the last octet; what it
keeps is exactly the bits at positions below `N`. -/
def Obligations.KeepMaskKeepsPositionsBelowN : Prop :=
  ∀ N j, 1 ≤ N → j < byteCount N →
    (j = byteCount N - 1 → N % 8 ≠ 0 → keepMask j N = (fullMask (N % 8)).setWidth 8) ∧
    (¬(j = byteCount N - 1 ∧ N % 8 ≠ 0) → keepMask j N = 0xFF#8) ∧
    (j = byteCount N - 1 →
      [0xFF#8, 0x01#8, 0x03#8, 0x07#8, 0x0F#8, 0x1F#8, 0x3F#8, 0x7F#8][N % 8]? = some (keepMask j N)) ∧
    ∀ p, p < 8 → (keepMask j N).getLsbD p = decide (8 * j + p < N)

/-! ### Encodings -/

/-- spec/30_encoding.md sections 1 and 2: the decoder reads every instruction back from its command word, with both
operand words at every value. -/
def Obligations.DecodeReadsBackEncode : Prop :=
  ∀ i : Instr, decode (encode i) = .ok i

/-- R87: every command word either selects one operation, of which it is the encoding and which a CMD beat carrying it
runs, or holds a reserved code, selects none and is rejected with IllegalOp. -/
def Obligations.EveryWordSelectsOrIsReserved : Prop :=
  ∀ cw : CommandWord,
    (∃ i, decode cw = .ok i ∧ encode i = cw ∧ wellFormedWord cw = true ∧ ∀ s, acceptCommand cw s = exec i s) ∨
    (decode cw = .error (.reservedOp (opField cw)) ∧ 5 ≤ (opField cw).toNat ∧ wellFormedWord cw = false ∧
      ∀ s, acceptCommand cw s = .next (s.raise .illegalOp))

/-- R82: the masked compare `CW & 0xF_00000000_00000000 = op << 64` selects the operation and no other bit takes part;
the operands are the two fields. -/
def Obligations.OpFieldAloneSelects : Prop :=
  ∀ cw : CommandWord,
    (decode cw = .ok (.bitwidth (aField cw) (bField cw)) ↔ cw &&& 0xF0000000000000000#68 = 0x0#68 <<< 64) ∧
    (decode cw = .ok (.fullmask (aField cw) (bField cw)) ↔ cw &&& 0xF0000000000000000#68 = 0x1#68 <<< 64) ∧
    (decode cw = .ok (.bytecount (aField cw) (bField cw)) ↔ cw &&& 0xF0000000000000000#68 = 0x2#68 <<< 64) ∧
    (decode cw = .ok (.encode (aField cw) (bField cw)) ↔ cw &&& 0xF0000000000000000#68 = 0x3#68 <<< 64) ∧
    (decode cw = .ok (.decode (aField cw) (bField cw)) ↔ cw &&& 0xF0000000000000000#68 = 0x4#68 <<< 64) ∧
    (decode cw = .error (.reservedOp (opField cw)) ↔
      ∃ op : OpCode, 5 ≤ op.toNat ∧ cw &&& 0xF0000000000000000#68 = op.setWidth 68 <<< 64)

/-- R92: the worked encodings, each decoded and answered. -/
def Obligations.WorkedEncodings : Prop :=
  (decode 0x0000000000000003FF#68 = .ok (.bitwidth 1023 0) ∧ (transact 0x0#4 1023 0 []).1 = 0x00000000A#36) ∧
  (decode 0x000000000FFFFFFFF#68 = .ok (.bitwidth (-1) 0) ∧ (transact 0x0#4 (-1) 0 []).1 = 0x000000020#36) ∧
  (decode 0x10000000000000020#68 = .ok (.fullmask 32 0) ∧ (transact 0x1#4 32 0 []).1 = 0x0FFFFFFFF#36) ∧
  (decode 0x10000000000000021#68 = .ok (.fullmask 33 0) ∧ (transact 0x1#4 33 0 []).1 = 0x900000000#36) ∧
  (decode 0x20000000000000009#68 = .ok (.bytecount 9 0) ∧ (transact 0x2#4 9 0 []).1 = 0x000000002#36) ∧
  (decode 0x200000000FFFFFFFF#68 = .ok (.bytecount (-1) 0) ∧ (transact 0x2#4 (-1) 0 []).1 = 0xA00000000#36) ∧
  (decode 0x3000000020000000A#68 = .ok (.encode 10 2) ∧
    transact 0x3#4 10 2 [0xFF#8, 0xFF#8] = (0x000000002#36, [0xFF#8, 0x03#8])) ∧
  (decode 0x4000000030000000A#68 = .ok (.decode 10 3) ∧
    transact 0x4#4 10 3 [0xFF#8, 0xFF#8, 0xFF#8] = (0xC00000000#36, [])) ∧
  (decode 0x70000000000000000#68 = .error (.reservedOp 0x7) ∧ (transact 0x7#4 0 0 []).1 = 0xB00000000#36)

/-- R84: the response word is `{err, code, data}` with the fields at their bit positions, and in every response the
block forms `err = 1` exactly when `code ≠ 0` and a rejection carries the data word 0. -/
def Obligations.ResponseWordLayout : Prop :=
  (∀ err code data,
    rspErr (responseWord err code data) = err ∧ rspCode (responseWord err code data) = code ∧
    rspData (responseWord err code data) = data ∧
    (responseWord err code data).toNat = err.toNat * 2 ^ 35 + code.toNat * 2 ^ 32 + data.toNat) ∧
  ∀ op a b, responseOk (decisionWord (decision op a b)) ∧
    (rspErr (decisionWord (decision op a b)) = true ↔ ∃ e, decision op a b = .raise e)

/-! ### The operations: what step ACCEPT does, on every operand -/

/-- R110: BITWIDTH, in IDLE, answers `BitWidth(a)` with success for every word, with no data phase, and ignores `b`;
all 33 values occur, 0 for the word 0 only; powers of two, the word -1 and the example are as listed. -/
def Obligations.BitwidthAnswersBitWidth : Prop :=
  (∀ a b s, s.ctx.phase = .idle → bitWidth a ≤ 32 ∧ opField (encode (.bitwidth a b)) = 0x0#4 ∧
    ∃ t, exec (.bitwidth a b) s = .next t ∧
      t.ctx.view = .resp (responseWord false 0#3 (BitVec.ofNat 32 (bitWidth a))) none ∧
      t.resetSeen = s.resetSeen ∧ t.inputs = s.inputs.tail) ∧
  (∀ k, k ≤ 32 → ∃ a, bitWidth a = k) ∧ (∀ a, bitWidth a = 0 ↔ a = 0) ∧
  (∀ k, k ≤ 31 → bitWidth (BitVec.ofNat 32 (2 ^ k)) = k + 1 ∧ bitWidth (BitVec.ofNat 32 (2 ^ k - 1)) = k) ∧
  bitWidth 0xFFFFFFFF#32 = 32 ∧
  encode (.bitwidth 1024 0) = 0x00000000000000400#68 ∧
  responseWord false 0#3 (BitVec.ofNat 32 (bitWidth 1024)) = 0x00000000B#36

/-- R114: every word with bit 31 set has width 32, and BITWIDTH, in IDLE, answers it with success; BITWIDTH raises for
no word. -/
def Obligations.NegativeWordsHaveFullWidth : Prop :=
  (∀ a : Word, s32 a < 0 → bitWidth a = 32) ∧
  (∀ a b s, s.ctx.phase = .idle → s32 a < 0 →
    ∃ t, exec (.bitwidth a b) s = .next t ∧ t.ctx.view = .resp (responseWord false 0#3 32#32) none) ∧
  ∀ a b s, s.ctx.phase = .idle → ∃ t, exec (.bitwidth a b) s = .next t ∧ t.ctx.phase = .resp ∧ rspErr t.ctx.rw = false

/-- R120: FULLMASK, in IDLE, answers `FullMask(u32(a))` for the widths 0 to 32 and raises InvalidWidth for every other
word, with no data phase either way, ignoring `b`. -/
def Obligations.FullmaskAnswersMaskOrInvalidWidth : Prop :=
  (∀ a b s, s.ctx.phase = .idle → u32 a ≤ 32 →
    ∃ t, exec (.fullmask a b) s = .next t ∧
      t.ctx.view = .resp (responseWord false 0#3 (fullMask (u32 a))) none ∧
      t.resetSeen = s.resetSeen ∧ t.inputs = s.inputs.tail) ∧
  (∀ a b s, s.ctx.phase = .idle → s32 a < 0 ∨ s32 a > 32 →
    ∃ t, exec (.fullmask a b) s = .next t ∧ t.ctx.view = .resp (responseWord true 1#3 0#32) none ∧
      t.resetSeen = s.resetSeen ∧ t.inputs = s.inputs.tail) ∧
  (∀ a, u32 a > 32 ↔ s32 a < 0 ∨ s32 a > 32) ∧
  (∀ a b, opField (encode (.fullmask a b)) = 0x1#4) ∧
  fullMask 0 = 0x00000000#32 ∧ fullMask 32 = 0xFFFFFFFF#32 ∧ fullMask 31 = 0x7FFFFFFF#32 ∧
  encode (.fullmask 10 0) = 0x1000000000000000A#68 ∧ responseWord false 0#3 (fullMask 10) = 0x0000003FF#36

/-- R130: BYTECOUNT, in IDLE, answers `ByteCount(N)` exactly for every count with `a[31] = 0` and raises
InvalidBitCount exactly for the others, with no data phase either way, ignoring `b`. -/
def Obligations.BytecountAnswersCountOrInvalidBitCount : Prop :=
  (∀ a b s, s.ctx.phase = .idle → a.getLsbD 31 = false →
    (BitVec.ofNat 32 (byteCount (u32 a))).toNat = byteCount (u32 a) ∧
    ∃ t, exec (.bytecount a b) s = .next t ∧
      t.ctx.view = .resp (responseWord false 0#3 (BitVec.ofNat 32 (byteCount (u32 a)))) none ∧
      t.resetSeen = s.resetSeen ∧ t.inputs = s.inputs.tail) ∧
  (∀ a b s, s.ctx.phase = .idle → a.getLsbD 31 = true →
    ∃ t, exec (.bytecount a b) s = .next t ∧ t.ctx.view = .resp (responseWord true 2#3 0#32) none ∧
      t.resetSeen = s.resetSeen ∧ t.inputs = s.inputs.tail) ∧
  (∀ a : Word, a.getLsbD 31 = true ↔ s32 a < 0) ∧
  (∀ a b, opField (encode (.bytecount a b)) = 0x2#4) ∧
  (∀ q, byteCount (8 * q) = q) ∧ (∀ q r, 1 ≤ r → r ≤ 7 → byteCount (8 * q + r) = q + 1) ∧
  byteCount (2 ^ 31 - 1) = 0x10000000 ∧
  encode (.bytecount 9 0) = 0x20000000000000009#68 ∧
  responseWord false 0#3 (BitVec.ofNat 32 (byteCount 9)) = 0x000000002#36

/-- spec/43_encode.md section 1, spec/10_state.md section 4: what step ACCEPT of ENCODE leaves live, for every operand
pair. A negative count raises InvalidBitCount; the count 0 answers 0 with no data phase; every other count answers
`ByteCount(N)`, starts a data phase and records `N`, `L` and `nbytes` without loss. No extent `b` is rejected. -/
def Obligations.EncodeStartsDataPhaseOrInvalidBitCount : Prop :=
  ∀ (a b : Word) (s : State), s.ctx.phase = .idle →
    (∀ t, exec (.encode a b) s = .next t → t.resetSeen = s.resetSeen ∧ t.inputs = s.inputs.tail) ∧
    (a.getLsbD 31 = true →
      ∃ t, exec (.encode a b) s = .next t ∧ t.ctx.view = .resp (responseWord true 2#3 0#32) none) ∧
    (u32 a = 0 → ∃ t, exec (.encode a b) s = .next t ∧ t.ctx.view = .resp (responseWord false 0#3 0#32) none) ∧
    (a.getLsbD 31 = false → u32 a ≠ 0 →
      ∃ t N nbytes, exec (.encode a b) s = .next t ∧
        t.ctx.view = .resp (responseWord false 0#3 (BitVec.ofNat 32 (byteCount (u32 a)))) (some (N, b, nbytes)) ∧
        N.toNat = u32 a ∧ nbytes.toNat = byteCount (u32 a))

/-- spec/44_decode.md section 1, spec/10_state.md section 4, spec/60_exceptions.md section 3: what step ACCEPT of DECODE
leaves live, for every operand pair. A negative count raises InvalidBitCount whatever `b` is; a buffer of another size
than `ByteCount(N)` raises LengthMismatch; the empty sequence answers 0 with no data phase; every other command answers
`ByteCount(N)`, starts a data phase and records `N`, `L` and `nbytes` without loss. -/
def Obligations.DecodeStartsDataPhaseOrRaises : Prop :=
  ∀ (a b : Word) (s : State), s.ctx.phase = .idle →
    (∀ t, exec (.decode a b) s = .next t → t.resetSeen = s.resetSeen ∧ t.inputs = s.inputs.tail) ∧
    (a.getLsbD 31 = true →
      ∃ t, exec (.decode a b) s = .next t ∧ t.ctx.view = .resp (responseWord true 2#3 0#32) none) ∧
    (a.getLsbD 31 = false → u32 b ≠ byteCount (u32 a) →
      ∃ t, exec (.decode a b) s = .next t ∧ t.ctx.view = .resp (responseWord true 4#3 0#32) none) ∧
    (u32 a = 0 → b = 0 →
      ∃ t, exec (.decode a b) s = .next t ∧ t.ctx.view = .resp (responseWord false 0#3 0#32) none) ∧
    (a.getLsbD 31 = false → u32 a ≠ 0 → u32 b = byteCount (u32 a) →
      ∃ t N nbytes, exec (.decode a b) s = .next t ∧
        t.ctx.view = .resp (responseWord false 0#3 b) (some (N, b, nbytes)) ∧
        N.toNat = u32 a ∧ nbytes.toNat = byteCount (u32 a))

/-- spec/60_exceptions.md sections 1 and 6, spec/30_encoding.md section 2: every instruction has a next state, and it is
answered with success exactly when its operands are in the legal range. Its frame, which for dead fields is the model's
choice (notes/assumptions/4.md) and outside IDLE says only what the decision would write (notes/assumptions/11.md): of
the context only `phase`, `rw`, `go` and, where a data phase follows, `N`, `L` and `nbytes` are written. -/
def Obligations.SuccessExactlyOnLegalOperands : Prop :=
  ∀ (i : Instr) (s : State), ∃ t, exec i s = .next t ∧ (rspErr t.ctx.rw = false ↔ i.wellFormed = true) ∧
    t.ctx.phase = .resp ∧ t.ctx.o = s.ctx.o ∧ t.ctx.hold = s.ctx.hold ∧
    (t.ctx.go = false → t.ctx.N = s.ctx.N ∧ t.ctx.L = s.ctx.L ∧ t.ctx.nbytes = s.ctx.nbytes) ∧
    t.resetSeen = s.resetSeen ∧ t.inputs = s.inputs.tail

/-- R182: which error a command raises, on every operation code and operands, and the codes. -/
def Obligations.ErrorsRaisedExactlyAsTabled : Prop :=
  (∀ op a b,
    (decision op a b = .raise .invalidWidth ↔ op = 0x1#4 ∧ u32 a > 32) ∧
    (decision op a b = .raise .invalidBitCount ↔ (op = 0x2#4 ∨ op = 0x3#4 ∨ op = 0x4#4) ∧ a.getLsbD 31 = true) ∧
    (decision op a b = .raise .illegalOp ↔ 0x5 ≤ op.toNat) ∧
    (decision op a b = .raise .lengthMismatch ↔
      op = 0x4#4 ∧ a.getLsbD 31 = false ∧ u32 b ≠ byteCount (u32 a))) ∧
  (errorCode .invalidWidth = 1 ∧ errorCode .invalidBitCount = 2 ∧ errorCode .illegalOp = 3 ∧
    errorCode .lengthMismatch = 4) ∧
  ∀ op a b, (rspCode (decisionWord (decision op a b)) = 0#3 ↔ ∃ v, decision op a b = .respond v) ∧
    (rspCode (decisionWord (decision op a b))).toNat ≤ 4

/-- R86: the word `b` of BITWIDTH, FULLMASK and BYTECOUNT changes nothing of what a rising edge does, and no word
with one of the five codes is rejected by the decoder. -/
def Obligations.IgnoredOperandHasNoEffect : Prop :=
  (∀ (s : State) (p : Pins) (rest : List Pins) (b : Word), p.cmdOp.toNat ≤ 2 →
    step { s with inputs := { p with cmdB := b } :: rest } = step { s with inputs := p :: rest }) ∧
  ∀ cw, (opField cw).toNat ≤ 4 → ∃ i, decode cw = .ok i

/-! ### One rising edge -/

/-- spec/10_state.md section 4: in IDLE, at an edge without reset at which the requester offers a command word that
selects an operation, the step is that operation's `exec` and nothing around it. -/
def Obligations.StepRunsDecodedCommand : Prop :=
  ∀ (s : State) (i : Instr),
    s.resetSeen = true → s.pins.rst = false → s.ctx.phase = .idle → s.pins.cmdValid = true →
    decode s.pins.command = .ok i → step s = exec i s

/-- R28: step ACCEPT. The decision of the command word becomes the response word; `go` says whether a data phase
follows; `N`, `L` and `nbytes` are written, without loss, when it does; the phase is RESP. -/
def Obligations.AcceptRecordsTheDecision : Prop :=
  ∀ s : State, s.resetSeen = true → s.pins.rst = false → s.ctx.phase = .idle → s.pins.cmdValid = true →
    ∃ t, s.edge = .beat (.cmd s.pins.command) ∧ step s = .next t ∧
      t.ctx.phase = .resp ∧
      (∀ v, decision s.pins.cmdOp s.pins.cmdA s.pins.cmdB = .respond v → t.ctx.rw = responseWord false 0#3 v) ∧
      (∀ e, decision s.pins.cmdOp s.pins.cmdA s.pins.cmdB = .raise e →
        t.ctx.rw = responseWord true (errorCode e) 0#32) ∧
      (t.ctx.go = true ↔ (s.pins.cmdOp = 0x3#4 ∨ s.pins.cmdOp = 0x4#4) ∧
        ∃ v, decision s.pins.cmdOp s.pins.cmdA s.pins.cmdB = .respond v ∧ v ≠ 0#32) ∧
      (t.ctx.go = true →
        t.ctx.N.toNat = u32 s.pins.cmdA ∧ t.ctx.L.toNat = u32 s.pins.cmdB ∧
        decision s.pins.cmdOp s.pins.cmdA s.pins.cmdB = .respond (t.ctx.nbytes.setWidth 32)) ∧
      t.resetSeen = true ∧ t.inputs = s.inputs.tail

/-- R185: a command whose code is reserved is answered with IllegalOp, whatever its operands, and with no data
phase. -/
def Obligations.ReservedCodeRaisesIllegalOp : Prop :=
  ∀ s : State, s.resetSeen = true → s.pins.rst = false → s.ctx.phase = .idle → s.pins.cmdValid = true →
    0x5 ≤ s.pins.cmdOp.toNat →
    ∃ t, step s = .next t ∧ t.ctx.view = .resp 0xB00000000#36 none ∧ t.resetSeen = true ∧ t.inputs = s.inputs.tail

/-- spec/60_exceptions.md section 1: `raise E` gives the response word `{1, code(E), 0}` and no data phase; whatever
edges follow, no SRC or OUT beat happens before the response is taken, and the RSP beat leaves the block in IDLE with
`cmd_ready = 1` and nothing live. (That an edge without the beat is a next state with the same context is the model's
reading, notes/assumptions/7.md.) -/
def Obligations.RaisedErrorIsOneResponseAndNoData : Prop :=
  ∀ (s t : State) (e : ErrorCode), s.edge = .beat (.cmd s.pins.command) →
    decision s.pins.cmdOp s.pins.cmdA s.pins.cmdB = .raise e → step s = .next t →
    t.ctx.rw = responseWord true (errorCode e) 0#32 ∧ t.ctx.outputs.rspErr = some true ∧
    t.ctx.outputs.rspCode = some (errorCode e) ∧ t.ctx.outputs.rspData = some 0#32 ∧
    t.ctx.outputs.srcReady = false ∧ t.ctx.outputs.outValid = false ∧
    ∀ u : State, u.ctx = t.ctx → u.resetSeen = true → u.pins.rst = false →
      (u.pins.rspReady = true →
        ∃ x, u.edge = .beat (.rsp t.ctx.rw) ∧ step u = .next x ∧ x.ctx.view = .idle ∧
          x.ctx.outputs.cmdReady = true) ∧
      (u.pins.rspReady = false → ∃ x, u.edge = .waiting ∧ step u = .next x ∧ x.ctx = t.ctx)

/-- spec/10_state.md section 4 (step RESPOND): in RESP, when the requester takes the response, the RSP beat carries
`rw`; if `go`, the data phase begins with `o = 0`, nothing held and the same `N`, `L` and `nbytes`, and otherwise the
block is in IDLE. -/
def Obligations.RespondStartsDataPhaseOrEnds : Prop :=
  ∀ s : State, s.resetSeen = true → s.pins.rst = false → s.ctx.phase = .resp → s.pins.rspReady = true →
    ∃ t, s.edge = .beat (.rsp s.ctx.rw) ∧ step s = .next t ∧ t.resetSeen = true ∧ t.inputs = s.inputs.tail ∧
      (s.ctx.go = true → t.ctx.view = .data s.ctx.N s.ctx.L s.ctx.nbytes 0#29 none) ∧
      (s.ctx.go = false → t.ctx.view = .idle)

/-- R32: step TAKE is enabled exactly in DATA with nothing held and `o < min(L, nbytes)`; its SRC beat carries the
octet on offer, which is held masked with `KeepMask(o, N)`; `o` and all else that is live stay. -/
def Obligations.TakeHoldsTheMaskedOctet : Prop :=
  (∀ c : Context, c.outputs.srcReady = true ↔
    c.phase = .data ∧ c.hold = none ∧ c.o.toNat < min c.L.toNat c.nbytes.toNat) ∧
  ∀ s : State, s.resetSeen = true → s.pins.rst = false → s.pins.srcValid = true →
    s.ctx.phase = .data → s.ctx.hold = none → s.ctx.o.toNat < min s.ctx.L.toNat s.ctx.nbytes.toNat →
    ∃ t, s.edge = .beat (.src s.pins.srcData) ∧ step s = .next t ∧
      t.ctx.view = .data s.ctx.N s.ctx.L s.ctx.nbytes s.ctx.o
        (some (s.pins.srcData &&& keepMask s.ctx.o.toNat s.ctx.N.toNat)) ∧
      t.resetSeen = true ∧ t.inputs = s.inputs.tail

/-- R33: step EMIT is enabled exactly in DATA with `o < nbytes` and an octet held, or none held and `o ≥ L`; its OUT
beat carries the held octet or `0x00`, and `out_last` exactly on octet `nbytes - 1`; then nothing is held, `o` is one
more, and the phase is IDLE if that is `nbytes`. -/
def Obligations.EmitSendsHeldOctetOrPadding : Prop :=
  (∀ c : Context, c.outputs.outValid = true ↔
    c.phase = .data ∧ c.o.toNat < c.nbytes.toNat ∧ (c.hold ≠ none ∨ c.L.toNat ≤ c.o.toNat)) ∧
  ∀ s : State, s.resetSeen = true → s.pins.rst = false → s.pins.outReady = true →
    s.ctx.phase = .data → s.ctx.o.toNat < s.ctx.nbytes.toNat → (s.ctx.hold ≠ none ∨ s.ctx.L.toNat ≤ s.ctx.o.toNat) →
    ∃ t, s.edge = .beat (.out (s.ctx.hold.getD 0x00#8) (decide (s.ctx.o.toNat = s.ctx.nbytes.toNat - 1))) ∧
      step s = .next t ∧ t.ctx.hold = none ∧ t.ctx.o.toNat = s.ctx.o.toNat + 1 ∧
      (s.ctx.o.toNat + 1 = s.ctx.nbytes.toNat → t.ctx.view = .idle) ∧
      (s.ctx.o.toNat + 1 ≠ s.ctx.nbytes.toNat →
        t.ctx.view = .data s.ctx.N s.ctx.L s.ctx.nbytes t.ctx.o none) ∧
      t.resetSeen = true ∧ t.inputs = s.inputs.tail

/-- R27: the outputs in each phase, exactly one of `src_ready` and `out_valid` in a reachable DATA; and the context
changes only at a RESET or at one beat. -/
def Obligations.OutputsFollowPhase : Prop :=
  (∀ c : Context, c.phase = .idle →
    c.outputs.cmdReady = true ∧ c.outputs.rspValid = false ∧ c.outputs.srcReady = false ∧
    c.outputs.outValid = false) ∧
  (∀ c : Context, c.phase = .resp →
    c.outputs.cmdReady = false ∧ c.outputs.rspValid = true ∧ c.outputs.srcReady = false ∧
    c.outputs.outValid = false ∧ c.outputs.rspErr = some (c.rw.getLsbD 35) ∧
    c.outputs.rspCode = some (c.rw.extractLsb' 32 3) ∧ c.outputs.rspData = some (c.rw.extractLsb' 0 32)) ∧
  (∀ c : Context, c.Inv → c.phase = .data →
    c.outputs.cmdReady = false ∧ c.outputs.rspValid = false ∧ (c.outputs.srcReady = !c.outputs.outValid)) ∧
  ∀ s t : State, step s = .next t → t.ctx ≠ s.ctx → s.edge = .reset ∨ ∃ b, s.edge = .beat b

/-- R223: at no rising edge do two of the four channels have a beat. -/
def Obligations.AtMostOneChannelBeats : Prop :=
  ∀ (c : Context) (p : Pins),
    ([cmdBeat c p, rspBeat c p, srcBeat c p, outBeat c p].filter (·.isSome)).length ≤ 1

/-- spec/10_state.md section 2: what the block has raised on a channel stays raised, its payload unchanged, at every
edge that is neither a beat of that channel nor a reset. -/
def Obligations.RaisedOutputsStayUntilTheirBeat : Prop :=
  ∀ s t : State, s.resetSeen = true → s.pins.rst = false → step s = .next t →
    (s.ctx.outputs.cmdReady = true → cmdBeat s.ctx s.pins = none → t.ctx.outputs.cmdReady = true) ∧
    (s.ctx.outputs.rspValid = true → rspBeat s.ctx s.pins = none →
      t.ctx.outputs.rspValid = true ∧ t.ctx.outputs.rspErr = s.ctx.outputs.rspErr ∧
      t.ctx.outputs.rspCode = s.ctx.outputs.rspCode ∧ t.ctx.outputs.rspData = s.ctx.outputs.rspData) ∧
    (s.ctx.outputs.srcReady = true → srcBeat s.ctx s.pins = none → t.ctx.outputs.srcReady = true) ∧
    (s.ctx.outputs.outValid = true → outBeat s.ctx s.pins = none →
      t.ctx.outputs.outValid = true ∧ t.ctx.outputs.outData = s.ctx.outputs.outData ∧
      t.ctx.outputs.outLast = s.ctx.outputs.outLast)

/-- spec/20_memory.md section 5: once a command is taken, the CMD ports have no effect on what a rising edge does. -/
def Obligations.CommandPortsDeadDuringTransaction : Prop :=
  ∀ (s : State) (p : Pins) (rest : List Pins) (valid : Bool) (op : OpCode) (b a : Word), s.ctx.phase ≠ .idle →
    step { s with inputs := { p with cmdValid := valid, cmdOp := op, cmdB := b, cmdA := a } :: rest } =
      step { s with inputs := p :: rest }

/-- R210: `rst = 1` is no beat and leaves the block in IDLE with nothing held and nothing live, from any state, at
every edge it is held; the outputs are IDLE's. -/
def Obligations.ResetAlwaysReachesIdle : Prop :=
  (∀ s : State, s.pins.rst = true →
    ∃ t, s.edge = .reset ∧ step s = .next t ∧ t.ctx.phase = .idle ∧ t.ctx.hold = none ∧ t.ctx.view = .idle ∧
      t.resetSeen = true ∧ t.inputs = s.inputs.tail ∧ t.ctx.outputs.cmdReady = true ∧
      t.ctx.outputs.rspValid = false ∧ t.ctx.outputs.srcReady = false ∧ t.ctx.outputs.outValid = false) ∧
  ∀ (s : State) (k : Nat), 1 ≤ k → k ≤ s.inputs.length → (∀ p ∈ s.inputs.take k, p.rst = true) →
    ∃ t, run k s = .next t ∧ t.ctx.view = .idle ∧ t.resetSeen = true ∧
      t.inputs = s.inputs.drop k ∧ beats k s = []

/-- spec/70_reset_and_hazards.md section 1: before the first RESET after power-up an edge with `rst = 0` has no
meaning, and no output may be read. -/
def Obligations.EdgeBeforeFirstResetIsRefused : Prop :=
  ∀ (c : Context) (inputs : List Pins), (State.powerUp c inputs).pins.rst = false →
    step (State.powerUp c inputs) = .refused .beforeReset ∧ (State.powerUp c inputs).outputs = none

/-- spec/70_reset_and_hazards.md sections 1 and 3, spec/60_exceptions.md section 1: after the first RESET every edge
has a next state, and so has every edge with `rst = 1`; the block never faults. (That an edge at which the block waits
or is stuck is a next state is the model's reading, notes/assumptions/7.md, where the spec speaks of no enabled step;
that nothing faults is notes/assumptions/13.md.) -/
def Obligations.EveryEdgeAfterResetHasANextState : Prop :=
  ∀ s : State, s.resetSeen = true ∨ s.pins.rst = true →
    ∃ t, step s = .next t ∧ t.resetSeen = true ∧ t.inputs = s.inputs.tail

/-! ### Invariants -/

/-- The invariant holds right after reset. -/
def Obligations.ContextInvariantAtReset : Prop :=
  State.reset.ctx.Inv ∧ State.reset.resetSeen = true ∧ State.reset.ctx.view = .idle

/-- spec/10_state.md sections 3 and 4, spec/30_encoding.md section 3: every rising edge keeps the invariant: a response
on offer is one the block can send; in DATA `nbytes = ByteCount(N)`, `o < nbytes`, and a held octet is a masked octet
of an index below `L`. -/
def Obligations.EveryStepKeepsContextInvariant : Prop :=
  ∀ s t : State, s.ctx.Inv → step s = .next t → t.ctx.Inv

/-- spec/70_reset_and_hazards.md sections 4 and 5: each beat of a transaction after its command brings its end one
beat nearer, and in IDLE, and only there, no beat is left. -/
def Obligations.EachBeatIsProgress : Prop :=
  (∀ (s t : State) (b : Beat), s.ctx.Inv → s.edge = .beat b → b.isCmd = false → step s = .next t →
    t.ctx.remaining + 1 = s.ctx.remaining) ∧
  ∀ c : Context, c.Inv → (c.remaining = 0 ↔ c.phase = .idle)

/-! ### Whole runs -/

/-- spec/70_reset_and_hazards.md section 4: from any context that meets the invariant, a requester that keeps every
channel going for the number of edges the transaction still needs brings the block to IDLE in exactly that many
edges, each of them a beat. -/
def Obligations.WillingRequesterReachesIdle : Prop :=
  ∀ s : State, s.resetSeen = true → s.ctx.Inv → s.ctx.phase ≠ .idle →
    s.ctx.remaining ≤ s.inputs.length → (∀ p ∈ s.inputs.take s.ctx.remaining, p.willing = true) →
    ∃ t, run s.ctx.remaining s = .next t ∧ t.ctx.phase = .idle ∧
      (beats s.ctx.remaining s).length = s.ctx.remaining ∧ t.inputs = s.inputs.drop s.ctx.remaining

/-- spec/70_reset_and_hazards.md section 3: if the signal the block waits for never comes and no reset comes, it stays
as it is, however many edges pass, with `cmd_ready = 0` and no beat: no error, no completed transaction. (That such
an edge is a next state with the same context is the model's reading, notes/assumptions/7.md.) -/
def Obligations.BrokenDutyLeavesTheBlockWaiting : Prop :=
  ∀ (s : State) (k : Nat), s.resetSeen = true → k ≤ s.inputs.length → (∀ p ∈ s.inputs.take k, p.rst = false) →
    ((s.ctx.phase = .resp ∧ ∀ p ∈ s.inputs.take k, p.rspReady = false) ∨
     (s.ctx.takeEnabled = true ∧ ∀ p ∈ s.inputs.take k, p.srcValid = false) ∨
     (s.ctx.emitOctet ≠ none ∧ ∀ p ∈ s.inputs.take k, p.outReady = false)) →
    run k s = .next { s with inputs := s.inputs.drop k } ∧ beats k s = [] ∧
    s.ctx.outputs.cmdReady = false

/-- spec/10_state.md sections 1, 3 and 5: dead fields have no effect. Two states with the same live context and the
same requester have the same beats and the same outputs after any number of edges. -/
def Obligations.DeadFieldsAreUnobservable : Prop :=
  ∀ (k : Nat) (s t : State), s.ctx.view = t.ctx.view → s.resetSeen = t.resetSeen → s.inputs = t.inputs →
    beats k s = beats k t ∧
    ∀ s' t', run k s = .next s' → run k t = .next t' →
      s'.outputs = t'.outputs ∧ s'.ctx.view = t'.ctx.view

/-- spec/70_reset_and_hazards.md section 1: after a RESET in the middle of anything, the block's beats are those of any
block in IDLE, whatever command was aborted. -/
def Obligations.ResetLeavesNoTrace : Prop :=
  ∀ (s t : State) (c : Context) (k : Nat), s.pins.rst = true → step s = .next t → c.phase = .idle →
    beats k t = beats k { resetSeen := true, ctx := c, inputs := s.inputs.tail }

/-- spec/10_state.md section 4, spec/70_reset_and_hazards.md sections 3 and 4: whatever the requester does, short of a
reset, the beats from one CMD beat to the next are an initial part of the transaction that the command and the octets
it took define, and the whole of it when the block is in IDLE again. (Waiting edges are
next states, the model's reading: notes/assumptions/7.md.) -/
def Obligations.AnyRequesterSeesOnlyTheTransaction : Prop :=
  ∀ (k : Nat) (s : State) (cw : CommandWord) (bs : List Beat),
    s.resetSeen = true → s.ctx.phase = .idle → (∀ p ∈ s.inputs.take k, p.rst = false) →
    beats k s = .cmd cw :: bs → (∀ b ∈ bs, b.isCmd = false) →
    (.cmd cw :: bs) <+: transactionBeats cw (takenOctets bs) ∧
    ∀ t, run k s = .next t → t.ctx.phase = .idle →
      .cmd cw :: bs = transactionBeats cw (takenOctets bs)

/-- spec/10_state.md section 4, spec/70_reset_and_hazards.md sections 3 and 4: a requester that serves a sequence of
commands, waiting as long as it likes before each beat, gets for each command in order exactly the beats of its
transaction, and leaves the block in IDLE. (Waiting edges are
next states, the model's reading: notes/assumptions/7.md.) -/
def Obligations.ServedCommandsDeliverExec : Prop :=
  ∀ (cmds : List (CommandWord × List Octet)) (ps rest : List Pins) (s : State),
    s.resetSeen = true → s.ctx.phase = .idle → s.inputs = ps ++ rest →
    serves (cmds.flatMap fun c => transactionBeats c.1 c.2) ps = true →
    beats ps.length s = (cmds.flatMap fun c => transactionBeats c.1 c.2) ∧
    ∃ t, run ps.length s = .next t ∧ t.ctx.phase = .idle ∧ t.inputs = rest

/-- spec/10_state.md section 4, spec/70_reset_and_hazards.md section 5: a transaction takes `src[0]` to
`src[min(L, nbytes) - 1]` in order, sends `out` in order, and has 2, or `2 + min(L, nbytes) + nbytes`, beats; the
response depends on the command word alone. -/
def Obligations.TransactionCountsItsBeats : Prop :=
  ∀ (cw : CommandWord) (src : List Octet),
    let r := transact (opField cw) (aField cw) (bField cw) src
    let m := min (u32 (bField cw)) r.2.length
    takenOctets (transactionBeats cw src) = (List.range m).map (srcOctet src) ∧
    sentOctets (transactionBeats cw src) = r.2 ∧
    (transactionBeats cw src).length = 2 + m + r.2.length ∧
    (r.2 ≠ [] → r.2.length = (rspData r.1).toNat ∧ r.2.length = byteCount (u32 (aField cw))) ∧
    ∀ src', (transact (opField cw) (aField cw) (bField cw) src').1 = r.1

/-- spec/70_reset_and_hazards.md section 3: while the requester keeps its duty on SRC and does not reset, every octet
it begins to offer from one IDLE state to a later one is taken, once and in order. (Waiting edges are
next states, the model's reading: notes/assumptions/7.md.) -/
def Obligations.SrcDutyLosesNoOctet : Prop :=
  ∀ (k : Nat) (s t : State), s.resetSeen = true → s.ctx.phase = .idle → (∀ p ∈ s.inputs.take k, p.rst = false) →
    keepsSrcDuty k s = true → run k s = .next t → t.ctx.phase = .idle →
    offeredOctets false k s = takenOctets (beats k s)

/-- spec/70_reset_and_hazards.md section 4: an octet left on offer when a data phase begins is taken as its
`src[0]`. -/
def Obligations.StaleOfferIsTakenAsFirstOctet : Prop :=
  ∀ (s : State) (p q : Pins) (rest : List Pins),
    s.resetSeen = true → s.ctx.phase = .resp → s.ctx.go = true → s.ctx.L ≠ 0#32 → s.ctx.nbytes ≠ 0#29 →
    s.inputs = p :: q :: rest → p.rst = false → p.rspReady = true → q.rst = false → q.srcValid = true →
    beats 2 s = [.rsp s.ctx.rw, .src q.srcData] ∧
    ∃ t, run 2 s = .next t ∧ t.ctx.hold = some (q.srcData &&& keepMask 0 s.ctx.N.toNat) ∧
      t.ctx.o = 0#29 ∧ t.ctx.phase = .data

/-! ### What the data phase delivers -/

/-- R146, R147: the bits of the output below `N` are the source's, and those from `N` to the end of the last octet
are 0, whatever the source holds there. -/
def Obligations.OutputBitsAreSourceBitsThenZero : Prop :=
  ∀ (N L : Nat) (src : List Octet),
    (∀ i, i < N → outBit (outOctets N L src) i = srcBit L src i) ∧
    ∀ i, N ≤ i → i < 8 * byteCount N → outBit (outOctets N L src) i = false

/-- R148: bit `p` of output octet `j` is the source bit `8j + p` below `N` and 0 from there; so the output depends on
the source's bits below `N` only, and on the extent only through which of the octets it reads exist. -/
def Obligations.OutputIgnoresBitsBeyondN : Prop :=
  (∀ (N L : Nat) (src : List Octet) (j p : Nat), j < byteCount N → p < 8 →
    ((outOctets N L src).getD j 0x00#8).getLsbD p = (if 8 * j + p < N then srcBit L src (8 * j + p) else false)) ∧
  (∀ (N L L' : Nat) (src src' : List Octet), (∀ i, i < N → srcBit L src i = srcBit L' src' i) →
    outOctets N L src = outOctets N L' src') ∧
  ∀ (N L L' : Nat) (src : List Octet), (∀ j, j < byteCount N → (j < L ↔ j < L')) →
    outOctets N L src = outOctets N L' src

/-- R144, R145: octets of the source at index `nbytes` and above contribute nothing and are not taken; missing octets
are zero padding, made without an SRC beat; with no source at all every octet is `0x00`. -/
def Obligations.LongSourceIsCutShortSourceIsPadded : Prop :=
  ∀ (N L : Nat) (src : List Octet),
    outOctets N L src = outOctets N L (src.take (byteCount N)) ∧
    (takenOctets (dataBeats L src (outOctets N L src))).length = min L (byteCount N) ∧
    (outOctets N L src).length = byteCount N ∧
    (∀ j, L ≤ j → j < byteCount N → (outOctets N L src)[j]? = some 0x00#8) ∧
    outOctets N 0 src = List.replicate (byteCount N) 0x00#8

/-- R149, R165: the count 0. ENCODE with any extent, and DECODE with the buffer size 0, succeed with `rsp_data = 0`
and two beats; DECODE with any other size is a LengthMismatch, and its octets are not taken. -/
def Obligations.ZeroBitsHaveNoDataPhase : Prop :=
  (∀ (b : Word) (src : List Octet),
    transactionBeats (encode (.encode 0 b)) src = [.cmd (encode (.encode 0 b)), .rsp (responseWord false 0#3 0#32)]) ∧
  (∀ src : List Octet,
    transactionBeats (encode (.decode 0 0)) src = [.cmd (encode (.decode 0 0)), .rsp (responseWord false 0#3 0#32)]) ∧
  ∀ (b : Word) (src : List Octet), b ≠ 0 →
    transactionBeats (encode (.decode 0 b)) src = [.cmd (encode (.decode 0 b)), .rsp (responseWord true 4#3 0#32)]

/-- R150, R166: where `N` is a multiple of 8 and not 0 nothing is masked: ENCODE copies or pads the last octet like
every other, and DECODE is the identity on the buffer. -/
def Obligations.WholeOctetsPassUnmasked : Prop :=
  ∀ N, N % 8 = 0 → 8 ≤ N →
    (∀ j, j < byteCount N → keepMask j N = 0xFF#8) ∧
    (∀ (L : Nat) (src : List Octet) (j : Nat), j < byteCount N →
      (outOctets N L src)[j]? = some (if j < L then srcOctet src j else 0x00#8)) ∧
    ∀ buf : List Octet, buf.length = byteCount N → outOctets N (byteCount N) buf = buf

/-- R151, R152: the document's worked example and the table of extents, as transactions of `N = 10`. -/
def Obligations.TenBitExamples : Prop :=
  byteCount 10 = 2 ∧ keepMask 1 10 = 0x03#8 ∧ keepMask 0 10 = 0xFF#8 ∧
  (∀ x y : Octet, outOctets 10 2 [x, y] = [x, y &&& 0x03#8]) ∧
  outOctets 10 2 [0x00#8, 0x0C#8] = [0x00#8, 0x00#8] ∧ outOctets 10 2 [0x00#8, 0x0F#8] = [0x00#8, 0x03#8] ∧
  (let b := fun (L : Word) (src : List Octet) => transactionBeats (encode (.encode 10 L)) src
   sentOctets (b 0 []) = [0x00#8, 0x00#8] ∧ takenOctets (b 0 []) = [] ∧
   sentOctets (b 1 [0xA5#8]) = [0xA5#8, 0x00#8] ∧ takenOctets (b 1 [0xA5#8]) = [0xA5#8] ∧
   sentOctets (b 2 [0xA5#8, 0x02#8]) = [0xA5#8, 0x02#8] ∧ takenOctets (b 2 [0xA5#8, 0x02#8]) = [0xA5#8, 0x02#8] ∧
   sentOctets (b 2 [0xA5#8, 0xFE#8]) = [0xA5#8, 0x02#8] ∧ takenOctets (b 2 [0xA5#8, 0xFE#8]) = [0xA5#8, 0xFE#8] ∧
   sentOctets (b 5 [0xA5#8, 0xFE#8, 0x77#8, 0x88#8, 0x99#8]) = [0xA5#8, 0x02#8] ∧
   takenOctets (b 5 [0xA5#8, 0xFE#8, 0x77#8, 0x88#8, 0x99#8]) = [0xA5#8, 0xFE#8])

/-- R154: packing a packed sequence again changes nothing, and sources that agree below `N` pack to the same
octets. -/
def Obligations.EncodingIsIdempotent : Prop :=
  (∀ (N L : Nat) (src : List Octet),
    outOctets N (byteCount N) (outOctets N L src) = outOctets N L src) ∧
  ∀ (N L L' : Nat) (src src' : List Octet), (∀ i, i < N → srcBit L src i = srcBit L' src' i) →
    outOctets N L src = outOctets N L' src'

/-- R163: on a command that passes the length check DECODE sends `src[j] & KeepMask(j, N)`, and its response and
octets are ENCODE's of the same operands and source. -/
def Obligations.DecodeOctetsAreEncodes : Prop :=
  ∀ (a b : Word) (src : List Octet), a.getLsbD 31 = false → u32 b = byteCount (u32 a) →
    transact 0x4#4 a b src = transact 0x3#4 a b src ∧
    ∀ j, j < byteCount (u32 a) →
      (transact 0x4#4 a b src).2[j]? = some (srcOctet src j &&& keepMask j (u32 a))

/-- R164: the defensive read: below `N` each bit is the buffer's physical bit, from `N` on it is 0, and a buffer with
a dirty tail is no error. -/
def Obligations.DecodeIgnoresDirtyTail : Prop :=
  ∀ (a b : Word) (buf : List Octet), a.getLsbD 31 = false → u32 b = byteCount (u32 a) → buf.length = u32 b →
    rspErr (transact 0x4#4 a b buf).1 = false ∧
    (∀ i, i < u32 a → outBit (transact 0x4#4 a b buf).2 i = (buf.getD (i / 8) 0x00#8).getLsbD (i % 8)) ∧
    ∀ i, u32 a ≤ i → i < 8 * byteCount (u32 a) → outBit (transact 0x4#4 a b buf).2 i = false

/-- R168: the round trip in both directions. -/
def Obligations.DecodeOfEncodeRoundTrip : Prop :=
  ∀ (a b c : Word) (src : List Octet), a.getLsbD 31 = false → u32 c = byteCount (u32 a) →
    (let e := (transact 0x3#4 a b src).2
     transact 0x4#4 a c e = (responseWord false 0#3 c, e) ∧
     ∀ i, i < u32 a → outBit (transact 0x4#4 a c e).2 i = srcBit (u32 b) src i) ∧
    ∀ buf : List Octet, buf.length = byteCount (u32 a) →
      let d := (transact 0x4#4 a c buf).2
      (transact 0x3#4 a c d).2 = d ∧
      (d = buf ↔ ∀ i, u32 a ≤ i → i < 8 * byteCount (u32 a) → outBit buf i = false)
end

