-- ==== Sys2Proof/Laws/Decode.lean ====
section
/-! SUPPORT. The fields of a command word read back what it was built from (spec/30_encoding.md R81). -/

namespace Sys2Proof

/-- Bit `i` of a command word, field by field (R81). -/
theorem getLsbD_commandWord (op : OpCode) (b a : Word) (i : Nat) (hi : i < 68) :
    (commandWord op b a).getLsbD i =
      if i < 32 then a.getLsbD i else if i < 64 then b.getLsbD (i - 32) else op.getLsbD (i - 64) := by
  simp only [commandWord, BitVec.getLsbD_or, BitVec.getLsbD_shiftLeft, BitVec.getLsbD_setWidth, hi, decide_true,
    Bool.true_and]
  split
  · rename_i h
    simp [h, show i < 64 by omega]
  · split
    · rename_i h₁ h₂
      simp [h₁, h₂, show i - 32 < 68 by omega, BitVec.getLsbD_of_ge a i (by omega)]
    · rename_i h₁ h₂
      simp [h₁, h₂, show i - 32 < 68 by omega, show i - 64 < 68 by omega, BitVec.getLsbD_of_ge a i (by omega),
        BitVec.getLsbD_of_ge b (i - 32) (by omega)]

@[simp] theorem opField_commandWord (op : OpCode) (b a : Word) : opField (commandWord op b a) = op := by
  refine BitVec.eq_of_getLsbD_eq fun i hi => ?_
  rw [opField, BitVec.getLsbD_extractLsb', getLsbD_commandWord _ _ _ _ (by omega)]
  simp only [hi, show ¬(64 + i < 32) by omega, show ¬(64 + i < 64) by omega, decide_true, Bool.true_and, if_false, Nat.add_sub_cancel_left]

@[simp] theorem bField_commandWord (op : OpCode) (b a : Word) : bField (commandWord op b a) = b := by
  refine BitVec.eq_of_getLsbD_eq fun i hi => ?_
  rw [bField, BitVec.getLsbD_extractLsb', getLsbD_commandWord _ _ _ _ (by omega)]
  simp only [hi, show ¬(32 + i < 32) by omega, show 32 + i < 64 by omega, decide_true, Bool.true_and, if_true, if_false, Nat.add_sub_cancel_left]

@[simp] theorem aField_commandWord (op : OpCode) (b a : Word) : aField (commandWord op b a) = a := by
  refine BitVec.eq_of_getLsbD_eq fun i hi => ?_
  rw [aField, BitVec.getLsbD_extractLsb', getLsbD_commandWord _ _ _ _ (by omega)]
  simp only [hi, decide_true, Bool.true_and, if_true, Nat.zero_add]

/-- A command word is its three fields (R81). -/
@[simp] theorem commandWord_fields (cw : CommandWord) : commandWord (opField cw) (bField cw) (aField cw) = cw := by
  refine BitVec.eq_of_getLsbD_eq fun i hi => ?_
  rw [getLsbD_commandWord _ _ _ _ hi]
  simp only [opField, bField, aField, BitVec.getLsbD_extractLsb']
  split
  · rename_i h
    simp [h]
  · split
    · rename_i h₁ h₂
      simp [show i - 32 < 32 by omega, show 32 + (i - 32) = i by omega]
    · rename_i h₁ h₂
      simp [show i - 64 < 4 by omega, show 64 + (i - 64) = i by omega]

end Sys2Proof
end

