-- ==== Sys2Proof/Laws/Flags.lean ====
section
/-! SUPPORT. The fields of a response word read back what it was built from (spec/30_encoding.md R84). -/

namespace Sys2Proof.Machine

/-- Bit `i` of a response word, field by field (R84). -/
theorem getLsbD_responseWord (err : Bool) (code : BitVec 3) (data : Word) (i : Nat) (hi : i < 36) :
    (responseWord err code data).getLsbD i =
      if i < 32 then data.getLsbD i else if i < 35 then code.getLsbD (i - 32) else err := by
  simp only [responseWord, BitVec.getLsbD_or, BitVec.getLsbD_shiftLeft, BitVec.getLsbD_setWidth, hi, decide_true,
    Bool.true_and]
  split
  · rename_i h
    simp [h, show i < 35 by omega]
  · split
    · rename_i h₁ h₂
      simp [h₁, h₂, show i - 32 < 36 by omega, BitVec.getLsbD_of_ge data i (by omega)]
    · rename_i h₁ h₂
      obtain rfl : i = 35 := by omega
      simp

@[simp] theorem rspErr_responseWord (err : Bool) (code : BitVec 3) (data : Word) :
    rspErr (responseWord err code data) = err := by
  rw [rspErr, getLsbD_responseWord _ _ _ _ (by decide)]
  rfl

@[simp] theorem rspCode_responseWord (err : Bool) (code : BitVec 3) (data : Word) :
    rspCode (responseWord err code data) = code := by
  refine BitVec.eq_of_getLsbD_eq fun i hi => ?_
  rw [rspCode, BitVec.getLsbD_extractLsb', getLsbD_responseWord _ _ _ _ (by omega)]
  simp only [hi, show ¬(32 + i < 32) by omega, show 32 + i < 35 by omega, decide_true, Bool.true_and, if_true, if_false, Nat.add_sub_cancel_left]

@[simp] theorem rspData_responseWord (err : Bool) (code : BitVec 3) (data : Word) :
    rspData (responseWord err code data) = data := by
  refine BitVec.eq_of_getLsbD_eq fun i hi => ?_
  rw [rspData, BitVec.getLsbD_extractLsb', getLsbD_responseWord _ _ _ _ (by omega)]
  simp only [hi, decide_true, Bool.true_and, if_true, Nat.zero_add]

@[simp] theorem rspErr_successWord (v : Word) : rspErr (successWord v) = false := rspErr_responseWord _ _ _

@[simp] theorem rspCode_successWord (v : Word) : rspCode (successWord v) = 0#3 := rspCode_responseWord _ _ _

@[simp] theorem rspData_successWord (v : Word) : rspData (successWord v) = v := rspData_responseWord _ _ _

@[simp] theorem rspErr_errorWord (e : ErrorCode) : rspErr (errorWord e) = true := rspErr_responseWord _ _ _

@[simp] theorem rspCode_errorWord (e : ErrorCode) : rspCode (errorWord e) = errorCode e := rspCode_responseWord _ _ _

@[simp] theorem rspData_errorWord (e : ErrorCode) : rspData (errorWord e) = 0#32 := rspData_responseWord _ _ _

/-- An error code is one of 1 to 4 (R182). -/
theorem errorCode_range (e : ErrorCode) : errorCode e ≠ 0#3 ∧ (errorCode e).toNat ≤ 4 := by cases e <;> decide

end Sys2Proof.Machine
end

