-- ==== Sys2Proof/Laws/Operands.lean ====
section
/-! SUPPORT. What the functions on operand words say, once: each lemma unfolds its function for the later proofs. -/

namespace Sys2Proof.Machine

/-! ### `widthBelow` and `zerosBelow`, the scans under `bitWidth` and `clz32` -/

/-- A scan below `n` that finds no 1 bit gives 0; one whose highest 1 bit is `k` gives `k + 1`. -/
theorem widthBelow_spec (w : Word) (n : Nat) :
    (widthBelow w n = 0 ∧ ∀ i, i < n → w.getLsbD i = false) ∨
    ∃ k, k < n ∧ widthBelow w n = k + 1 ∧ w.getLsbD k = true ∧ ∀ i, k < i → i < n → w.getLsbD i = false := by
  induction n with
  | zero => exact .inl ⟨rfl, fun i h => absurd h (Nat.not_lt_zero i)⟩
  | succ n ih =>
    unfold widthBelow
    by_cases hb : w.getLsbD n = true
    · exact .inr ⟨n, Nat.lt_succ_self n, by simp [hb], hb, fun i h₁ h₂ => by omega⟩
    · have hb' : w.getLsbD n = false := by simpa using hb
      rcases ih with ⟨h0, hz⟩ | ⟨k, hk, he, h1, hz⟩
      · refine .inl ⟨by simp [hb', h0], fun i hi => ?_⟩
        rcases Nat.lt_succ_iff_lt_or_eq.mp hi with h | rfl
        · exact hz i h
        · exact hb'
      · refine .inr ⟨k, by omega, by simp [hb', he], h1, fun i h₁ h₂ => ?_⟩
        rcases Nat.lt_succ_iff_lt_or_eq.mp h₂ with h | rfl
        · exact hz i h₁ h
        · exact hb'

/-- The two scans count the same bits from the two ends. -/
theorem zerosBelow_add_widthBelow (w : Word) (n : Nat) : zerosBelow w n + widthBelow w n = n := by
  induction n with
  | zero => rfl
  | succ n ih => unfold zerosBelow widthBelow; split <;> omega

/-- The leading `zerosBelow w n` bits below `n` are 0. -/
theorem zerosBelow_zero (w : Word) (n i : Nat) (h : i < zerosBelow w n) : w.getLsbD (n - 1 - i) = false := by
  induction n generalizing i with
  | zero => simp [zerosBelow] at h
  | succ n ih =>
    unfold zerosBelow at h
    split at h
    · simp at h
    · rename_i hb
      cases i with
      | zero => simpa using hb
      | succ i => have := ih i (by omega); rwa [show n + 1 - 1 - (i + 1) = n - 1 - i by omega]

/-! ### `fullMask` -/

@[simp] theorem u32_fullMask (k : Nat) (h : k ≤ 32) : u32 (fullMask k) = 2 ^ k - 1 := by
  have : (2 : Nat) ^ k ≤ 2 ^ 32 := Nat.pow_le_pow_right (by decide) h
  have h1 : 0 < 2 ^ k := Nat.two_pow_pos k
  simp only [u32, fullMask, BitVec.toNat_ofNat]
  exact Nat.mod_eq_of_lt (by omega)

/-- Bit `i` of a mask of `k` bits (R121). -/
theorem getLsbD_fullMask (k i : Nat) : (fullMask k).getLsbD i = (decide (i < 32) && decide (i < k)) := by
  simp [fullMask, BitVec.getLsbD_ofNat, Nat.testBit_two_pow_sub_one]

/-! ### `byteCount` -/

/-- The second form of R131. -/
theorem byteCount_eq (N : Nat) : byteCount N = (N + 7) / 8 := by
  unfold byteCount; split <;> omega

/-- What `byteCount` means to linear arithmetic. -/
theorem byteCount_bounds (N : Nat) : 8 * byteCount N ≤ N + 7 ∧ N ≤ 8 * byteCount N := by
  rw [byteCount_eq]; omega

@[simp] theorem byteCount_eq_zero (N : Nat) : byteCount N = 0 ↔ N = 0 := by
  rw [byteCount_eq]; omega

/-- The byte count of a 31-bit count fits the 29 bits of `nbytes` (R26, R131). -/
theorem byteCount_lt (N : Nat) (h : N < 2 ^ 31) : byteCount N < 2 ^ 29 := by
  rw [byteCount_eq]; omega

/-- A word with bit 31 clear is a count below `2^31` (R83). -/
theorem u32_lt_of_getLsbD (a : Word) (h : a.getLsbD 31 = false) : u32 a < 2 ^ 31 := by
  have h2 := BitVec.msb_eq_decide a
  have h3 : a.msb = a.getLsbD 31 := rfl
  rw [h3, h] at h2
  unfold u32
  simpa using h2.symm

/-! ### `keepMask` -/

/-- What `KeepMask` keeps of octet `j`: the positions of the sequence below `N` (R58). -/
theorem getLsbD_keepMask (j N p : Nat) (hj : j < byteCount N) (hp : p < 8) :
    (keepMask j N).getLsbD p = decide (8 * j + p < N) := by
  have hb := byteCount_bounds N
  unfold keepMask
  split
  · rename_i h
    have : N = 8 * j + N % 8 := by have := h.1; rw [byteCount_eq] at *; omega
    simp only [BitVec.getLsbD_setWidth, getLsbD_fullMask, hp, decide_true, Bool.true_and]
    rw [show (decide (p < 32)) = true by simp; omega, Bool.true_and]
    exact decide_eq_decide.mpr (by omega)
  · rename_i h
    have : 8 * j + p < N := by rw [byteCount_eq] at *; omega
    rw [decide_eq_true this]
    have : p = 0 ∨ p = 1 ∨ p = 2 ∨ p = 3 ∨ p = 4 ∨ p = 5 ∨ p = 6 ∨ p = 7 := by omega
    rcases this with rfl | rfl | rfl | rfl | rfl | rfl | rfl | rfl <;> rfl

end Sys2Proof.Machine
end

