-- ==== Sys2Proof/Laws/State.lean ====
section
/-! SUPPORT. One lemma per field and per update of the state, each true by unfolding the update once. -/

namespace Sys2Proof.Machine

/-! ### `State.tick` -/

@[simp] theorem State.tick_resetSeen (s : State) : s.tick.resetSeen = s.resetSeen := rfl
@[simp] theorem State.tick_inputs (s : State) : s.tick.inputs = s.inputs.tail := rfl
@[simp] theorem State.tick_ctx (s : State) : s.tick.ctx = s.ctx := rfl

/-! ### `State.respond` -/

@[simp] theorem State.respond_resetSeen (s : State) (v : Word) : (s.respond v).resetSeen = s.resetSeen := rfl
@[simp] theorem State.respond_inputs (s : State) (v : Word) : (s.respond v).inputs = s.inputs.tail := rfl
@[simp] theorem State.respond_phase (s : State) (v : Word) : (s.respond v).ctx.phase = .resp := rfl
@[simp] theorem State.respond_rw (s : State) (v : Word) : (s.respond v).ctx.rw = successWord v := rfl
@[simp] theorem State.respond_go (s : State) (v : Word) : (s.respond v).ctx.go = false := rfl
@[simp] theorem State.respond_N (s : State) (v : Word) : (s.respond v).ctx.N = s.ctx.N := rfl
@[simp] theorem State.respond_L (s : State) (v : Word) : (s.respond v).ctx.L = s.ctx.L := rfl
@[simp] theorem State.respond_nbytes (s : State) (v : Word) : (s.respond v).ctx.nbytes = s.ctx.nbytes := rfl
@[simp] theorem State.respond_o (s : State) (v : Word) : (s.respond v).ctx.o = s.ctx.o := rfl
@[simp] theorem State.respond_hold (s : State) (v : Word) : (s.respond v).ctx.hold = s.ctx.hold := rfl

/-! ### `State.raise` -/

@[simp] theorem State.raise_resetSeen (s : State) (e : ErrorCode) : (s.raise e).resetSeen = s.resetSeen := rfl
@[simp] theorem State.raise_inputs (s : State) (e : ErrorCode) : (s.raise e).inputs = s.inputs.tail := rfl
@[simp] theorem State.raise_phase (s : State) (e : ErrorCode) : (s.raise e).ctx.phase = .resp := rfl
@[simp] theorem State.raise_rw (s : State) (e : ErrorCode) : (s.raise e).ctx.rw = errorWord e := rfl
@[simp] theorem State.raise_go (s : State) (e : ErrorCode) : (s.raise e).ctx.go = false := rfl
@[simp] theorem State.raise_N (s : State) (e : ErrorCode) : (s.raise e).ctx.N = s.ctx.N := rfl
@[simp] theorem State.raise_L (s : State) (e : ErrorCode) : (s.raise e).ctx.L = s.ctx.L := rfl
@[simp] theorem State.raise_nbytes (s : State) (e : ErrorCode) : (s.raise e).ctx.nbytes = s.ctx.nbytes := rfl
@[simp] theorem State.raise_o (s : State) (e : ErrorCode) : (s.raise e).ctx.o = s.ctx.o := rfl
@[simp] theorem State.raise_hold (s : State) (e : ErrorCode) : (s.raise e).ctx.hold = s.ctx.hold := rfl

/-! ### `State.takeStep` -/

@[simp] theorem State.takeStep_resetSeen (s : State) (v : Octet) : (s.takeStep v).resetSeen = s.resetSeen := rfl
@[simp] theorem State.takeStep_inputs (s : State) (v : Octet) : (s.takeStep v).inputs = s.inputs.tail := rfl
@[simp] theorem State.takeStep_phase (s : State) (v : Octet) : (s.takeStep v).ctx.phase = s.ctx.phase := rfl
@[simp] theorem State.takeStep_rw (s : State) (v : Octet) : (s.takeStep v).ctx.rw = s.ctx.rw := rfl
@[simp] theorem State.takeStep_go (s : State) (v : Octet) : (s.takeStep v).ctx.go = s.ctx.go := rfl
@[simp] theorem State.takeStep_N (s : State) (v : Octet) : (s.takeStep v).ctx.N = s.ctx.N := rfl
@[simp] theorem State.takeStep_L (s : State) (v : Octet) : (s.takeStep v).ctx.L = s.ctx.L := rfl
@[simp] theorem State.takeStep_nbytes (s : State) (v : Octet) : (s.takeStep v).ctx.nbytes = s.ctx.nbytes := rfl
@[simp] theorem State.takeStep_o (s : State) (v : Octet) : (s.takeStep v).ctx.o = s.ctx.o := rfl
@[simp] theorem State.takeStep_hold (s : State) (v : Octet) : (s.takeStep v).ctx.hold = some (v &&& keepMask s.ctx.o.toNat s.ctx.N.toNat) := rfl

/-! ### `State.emitStep` -/

@[simp] theorem State.emitStep_resetSeen (s : State) : s.emitStep.resetSeen = s.resetSeen := rfl
@[simp] theorem State.emitStep_inputs (s : State) : s.emitStep.inputs = s.inputs.tail := rfl
@[simp] theorem State.emitStep_phase (s : State) : s.emitStep.ctx.phase = if s.ctx.isLast then .idle else s.ctx.phase := rfl
@[simp] theorem State.emitStep_rw (s : State) : s.emitStep.ctx.rw = s.ctx.rw := rfl
@[simp] theorem State.emitStep_go (s : State) : s.emitStep.ctx.go = s.ctx.go := rfl
@[simp] theorem State.emitStep_N (s : State) : s.emitStep.ctx.N = s.ctx.N := rfl
@[simp] theorem State.emitStep_L (s : State) : s.emitStep.ctx.L = s.ctx.L := rfl
@[simp] theorem State.emitStep_nbytes (s : State) : s.emitStep.ctx.nbytes = s.ctx.nbytes := rfl
@[simp] theorem State.emitStep_o (s : State) : s.emitStep.ctx.o = s.ctx.o + 1#29 := rfl
@[simp] theorem State.emitStep_hold (s : State) : s.emitStep.ctx.hold = none := rfl

/-! ### `State.resetStep` -/

@[simp] theorem State.resetStep_resetSeen (s : State) : s.resetStep.resetSeen = true := rfl
@[simp] theorem State.resetStep_inputs (s : State) : s.resetStep.inputs = s.inputs.tail := rfl
@[simp] theorem State.resetStep_phase (s : State) : s.resetStep.ctx.phase = .idle := rfl
@[simp] theorem State.resetStep_rw (s : State) : s.resetStep.ctx.rw = 0#36 := rfl
@[simp] theorem State.resetStep_go (s : State) : s.resetStep.ctx.go = false := rfl
@[simp] theorem State.resetStep_N (s : State) : s.resetStep.ctx.N = 0#31 := rfl
@[simp] theorem State.resetStep_L (s : State) : s.resetStep.ctx.L = 0#32 := rfl
@[simp] theorem State.resetStep_nbytes (s : State) : s.resetStep.ctx.nbytes = 0#29 := rfl
@[simp] theorem State.resetStep_o (s : State) : s.resetStep.ctx.o = 0#29 := rfl
@[simp] theorem State.resetStep_hold (s : State) : s.resetStep.ctx.hold = none := rfl

/-! ### `State.respondData`: one case without a data phase, one with -/

/-- The response 0 of ENCODE and DECODE has no data phase (R30). -/
@[simp] theorem State.respondData_zero (s : State) (a b : Word) : s.respondData a b 0#32 = s.respond 0#32 := rfl

/-- The response of ENCODE and DECODE that starts a data phase (R28). -/
theorem State.respondData_of_ne (s : State) (a b v : Word) (h : v ≠ 0#32) :
    s.respondData a b v =
      { s.tick with
        ctx := { s.ctx with
          phase := .resp, rw := successWord v, go := true,
          N := a.setWidth 31, L := b, nbytes := v.setWidth 29 } } := if_neg h

@[simp] theorem State.respondData_resetSeen (s : State) (a b v : Word) :
    (s.respondData a b v).resetSeen = s.resetSeen := by
  unfold State.respondData; split <;> rfl

@[simp] theorem State.respondData_inputs (s : State) (a b v : Word) :
    (s.respondData a b v).inputs = s.inputs.tail := by
  unfold State.respondData; split <;> rfl

@[simp] theorem State.respondData_phase (s : State) (a b v : Word) : (s.respondData a b v).ctx.phase = .resp := by
  unfold State.respondData; split <;> rfl

@[simp] theorem State.respondData_rw (s : State) (a b v : Word) :
    (s.respondData a b v).ctx.rw = successWord v := by
  unfold State.respondData; split <;> rfl

@[simp] theorem State.respondData_go (s : State) (a b v : Word) :
    (s.respondData a b v).ctx.go = decide (v ≠ 0#32) := by
  unfold State.respondData; split <;> simp_all

@[simp] theorem State.respondData_o (s : State) (a b v : Word) : (s.respondData a b v).ctx.o = s.ctx.o := by
  unfold State.respondData; split <;> rfl

@[simp] theorem State.respondData_hold (s : State) (a b v : Word) :
    (s.respondData a b v).ctx.hold = s.ctx.hold := by
  unfold State.respondData; split <;> rfl

/-! ### `State.respondStep`: one case with a data phase, one without -/

@[simp] theorem State.respondStep_resetSeen (s : State) : s.respondStep.resetSeen = s.resetSeen := rfl

@[simp] theorem State.respondStep_inputs (s : State) : s.respondStep.inputs = s.inputs.tail := rfl

theorem State.respondStep_of_go (s : State) (h : s.ctx.go = true) :
    s.respondStep = { s.tick with ctx := { s.ctx with phase := .data, o := 0#29, hold := none } } := by
  simp [State.respondStep, h]

theorem State.respondStep_of_not_go (s : State) (h : s.ctx.go = false) :
    s.respondStep = { s.tick with ctx := { s.ctx with phase := .idle } } := by
  simp [State.respondStep, h]

/-! ### The ends of a decision phase -/

@[simp] theorem State.conclude_respond (s : State) (v : Word) : s.conclude (.respond v) = s.respond v := rfl

@[simp] theorem State.conclude_raise (s : State) (e : ErrorCode) : s.conclude (.raise e) = s.raise e := rfl

@[simp] theorem State.concludeData_respond (s : State) (a b v : Word) :
    s.concludeData a b (.respond v) = s.respondData a b v := rfl

@[simp] theorem State.concludeData_raise (s : State) (a b : Word) (e : ErrorCode) :
    s.concludeData a b (.raise e) = s.raise e := rfl

end Sys2Proof.Machine
end

