-- ==== Sys2Proof/Laws/Ops.lean ====
section
/-! SUPPORT. What the shared operations of Sys2Proof/Machine/Ops.lean can do, each said once. -/

namespace Sys2Proof.Machine

/-! ### The command word on the ports -/

@[simp] theorem opField_command (p : Pins) : opField p.command = p.cmdOp := opField_commandWord _ _ _

@[simp] theorem bField_command (p : Pins) : bField p.command = p.cmdB := bField_commandWord _ _ _

@[simp] theorem aField_command (p : Pins) : aField p.command = p.cmdA := aField_commandWord _ _ _

/-- The ports offer exactly the command put on them. -/
@[simp] theorem command_offerOver (p : Pins) (cw : CommandWord) : (offerOver p cw).command = cw :=
  commandWord_fields cw

/-! ### What TAKE and EMIT need -/

/-- When step TAKE is enabled (R32). -/
theorem takeEnabled_iff (c : Context) :
    c.takeEnabled = true ↔ c.phase = .data ∧ c.hold = none ∧ c.o.toNat < min c.L.toNat c.nbytes.toNat := by
  simp [Context.takeEnabled, and_assoc]

/-- What step EMIT offers, and when (R33). -/
theorem emitOctet_eq_some_iff (c : Context) (v : Octet) :
    c.emitOctet = some v ↔
      c.phase = .data ∧ c.o.toNat < c.nbytes.toNat ∧
        (c.hold = some v ∨ c.hold = none ∧ c.L.toNat ≤ c.o.toNat ∧ v = 0x00#8) := by
  unfold Context.emitOctet
  split
  · rename_i h
    cases hh : c.hold with
    | some x => simp [h.1, h.2]
    | none =>
      by_cases hl : c.L.toNat ≤ c.o.toNat
      · simp only [hl, if_true, h.1, h.2, true_and, reduceCtorEq, false_or, Option.some.injEq]
        exact eq_comm
      · simp [h.1, h.2, hl]
  · rename_i h
    constructor
    · intro h'; cases h'
    · intro h'; exact absurd ⟨h'.1, h'.2.1⟩ h

/-- TAKE and EMIT are never enabled together. -/
theorem emitOctet_of_takeEnabled (c : Context) (h : c.takeEnabled = true) : c.emitOctet = none := by
  rw [takeEnabled_iff] at h
  rw [Option.eq_none_iff_forall_ne_some]
  intro v hv
  rw [emitOctet_eq_some_iff] at hv
  have := h.2.2
  rcases hv.2.2 with h' | ⟨-, h', -⟩
  · rw [h.2.1] at h'; cases h'
  · omega

/-! ### The beat at an edge, phase by phase -/

theorem beatAt_of_idle (c : Context) (p : Pins) (h : c.phase = .idle) :
    beatAt c p = if p.cmdValid then some (.cmd p.command) else none := by
  cases hv : p.cmdValid <;>
    simp [beatAt, cmdBeat, rspBeat, srcBeat, outBeat, Context.outputs, Context.takeEnabled, Context.emitOctet, h, hv]

theorem beatAt_of_resp (c : Context) (p : Pins) (h : c.phase = .resp) :
    beatAt c p = if p.rspReady then some (.rsp c.rw) else none := by
  cases hv : p.rspReady <;>
    simp [beatAt, cmdBeat, rspBeat, srcBeat, outBeat, Context.outputs, Context.takeEnabled, Context.emitOctet, h, hv]

theorem beatAt_of_takeEnabled (c : Context) (p : Pins) (h : c.takeEnabled = true) :
    beatAt c p = if p.srcValid then some (.src p.srcData) else none := by
  have hd := ((takeEnabled_iff c).mp h).1
  have he := emitOctet_of_takeEnabled c h
  cases hv : p.srcValid <;>
    simp [beatAt, cmdBeat, rspBeat, srcBeat, outBeat, Context.outputs, h, hd, he, hv]

theorem beatAt_of_emitOctet (c : Context) (p : Pins) (v : Octet) (h : c.emitOctet = some v) :
    beatAt c p = if p.outReady then some (.out v c.isLast) else none := by
  have hd := ((emitOctet_eq_some_iff c v).mp h).1
  have ht : c.takeEnabled = false := by
    cases ht : c.takeEnabled with
    | false => rfl
    | true => rw [emitOctet_of_takeEnabled c ht] at h; cases h
  cases hv : p.outReady <;>
    simp [beatAt, cmdBeat, rspBeat, srcBeat, outBeat, Context.outputs, h, hd, ht, hv]

/-- A DATA context in which neither TAKE nor EMIT is enabled (none is reachable) has no beat. -/
theorem beatAt_of_neither (c : Context) (p : Pins) (hd : c.phase = .data) (ht : c.takeEnabled = false)
    (he : c.emitOctet = none) : beatAt c p = none := by
  simp [beatAt, cmdBeat, rspBeat, srcBeat, outBeat, Context.outputs, hd, ht, he]

/-- Everything a beat can be, with the phase and the ports that make it (R24, R25). -/
theorem beatAt_cases (c : Context) (p : Pins) (b : Beat) (h : beatAt c p = some b) :
    (c.phase = .idle ∧ p.cmdValid = true ∧ b = .cmd p.command) ∨
    (c.phase = .resp ∧ p.rspReady = true ∧ b = .rsp c.rw) ∨
    (c.takeEnabled = true ∧ p.srcValid = true ∧ b = .src p.srcData) ∨
    ∃ v, c.emitOctet = some v ∧ p.outReady = true ∧ b = .out v c.isLast := by
  cases hp : c.phase with
  | idle =>
    rw [beatAt_of_idle c p hp] at h
    split at h
    · exact .inl ⟨rfl, by assumption, (Option.some.inj h).symm⟩
    · cases h
  | resp =>
    rw [beatAt_of_resp c p hp] at h
    split at h
    · exact .inr (.inl ⟨rfl, by assumption, (Option.some.inj h).symm⟩)
    · cases h
  | data =>
    cases ht : c.takeEnabled with
    | true =>
      rw [beatAt_of_takeEnabled c p ht] at h
      split at h
      · exact .inr (.inr (.inl ⟨rfl, by assumption, (Option.some.inj h).symm⟩))
      · cases h
    | false =>
      cases he : c.emitOctet with
      | none => rw [beatAt_of_neither c p hp ht he] at h; cases h
      | some v =>
        rw [beatAt_of_emitOctet c p v he] at h
        split at h
        · exact .inr (.inr (.inr ⟨v, rfl, by assumption, (Option.some.inj h).symm⟩))
        · cases h

/-! ### What an edge is -/

/-- Everything a rising edge can be (R24, R210, R213). -/
theorem edge_cases (s : State) :
    (s.edge = .reset ∧ s.pins.rst = true) ∨
    (s.edge = .beforeReset ∧ s.pins.rst = false ∧ s.resetSeen = false) ∨
    (s.pins.rst = false ∧ s.resetSeen = true ∧
      ((s.edge = .waiting ∧ beatAt s.ctx s.pins = none) ∨
       ∃ b, s.edge = .beat b ∧ beatAt s.ctx s.pins = some b)) := by
  cases hr : s.pins.rst with
  | true => exact .inl ⟨by simp [State.edge, hr], rfl⟩
  | false =>
    cases hs : s.resetSeen with
    | false => exact .inr (.inl ⟨by simp [State.edge, hr, hs], rfl, rfl⟩)
    | true =>
      cases hb : beatAt s.ctx s.pins with
      | none => exact .inr (.inr ⟨rfl, rfl, .inl ⟨by simp [State.edge, hr, hs, hb], rfl⟩⟩)
      | some b => exact .inr (.inr ⟨rfl, rfl, .inr ⟨b, by simp [State.edge, hr, hs, hb], rfl⟩⟩)

/-- An edge after the first RESET and without reset is the beat of its ports, or the block waits. -/
theorem edge_of_live (s : State) (hs : s.resetSeen = true) (hr : s.pins.rst = false) :
    s.edge = match beatAt s.ctx s.pins with
      | some b => .beat b
      | none => .waiting := by
  cases hb : beatAt s.ctx s.pins <;> simp [State.edge, hr, hs, hb]

theorem edge_of_rst (s : State) (hr : s.pins.rst = true) : s.edge = .reset := by simp [State.edge, hr]

/-- The edge is a beat only after the first RESET and without reset. -/
theorem edge_eq_beat_iff (s : State) (b : Beat) :
    s.edge = .beat b ↔ s.pins.rst = false ∧ s.resetSeen = true ∧ beatAt s.ctx s.pins = some b := by
  rcases edge_cases s with ⟨h, h1⟩ | ⟨h, h1, h2⟩ | ⟨h1, h2, ⟨h, h3⟩ | ⟨b', h, h3⟩⟩
  · simp [h, h1]
  · simp [h, h1, h2]
  · simp [h, h1, h2, h3]
  · simp [h, h1, h2, h3]

/-! ### Decisions -/

/-- ENCODE and DECODE only ever answer the byte count of a legal count (R140, R160). -/
theorem decideEncode_respond (a v : Word) (h : decideEncode a = .respond v) :
    a.getLsbD 31 = false ∧ v = BitVec.ofNat 32 (byteCount (u32 a)) := by
  unfold decideEncode at h
  split at h
  · cases h
  · exact ⟨by simp_all, (Decision.respond.inj h).symm⟩

theorem decideDecode_respond (a b v : Word) (h : decideDecode a b = .respond v) :
    a.getLsbD 31 = false ∧ u32 b = byteCount (u32 a) ∧ v = BitVec.ofNat 32 (byteCount (u32 a)) := by
  unfold decideDecode at h
  split at h
  · cases h
  · split at h
    · cases h
    · exact ⟨by simp_all, by simp_all, (Decision.respond.inj h).symm⟩

/-- The byte count of a legal count is a word without loss (R131, R132). -/
theorem toNat_byteCount_word (a : Word) (h : a.getLsbD 31 = false) :
    (BitVec.ofNat 32 (byteCount (u32 a))).toNat = byteCount (u32 a) := by
  have := byteCount_lt _ (u32_lt_of_getLsbD a h)
  simp only [BitVec.toNat_ofNat]
  exact Nat.mod_eq_of_lt (by omega)

/-- An operation code is one of the five or a reserved one (R82). -/
theorem opCode_cases (op : OpCode) :
    op = 0#4 ∨ op = 1#4 ∨ op = 2#4 ∨ op = 3#4 ∨ op = 4#4 ∨ 5 ≤ op.toNat := by
  revert op; decide

/-- A reserved code selects no operation (R88). -/
theorem decode_reserved (cw : CommandWord) (h : 5 ≤ (opField cw).toNat) :
    decode cw = .error (.reservedOp (opField cw)) := by
  unfold decode
  split <;> first | omega | rfl

theorem decision_reserved (op : OpCode) (a b : Word) (h : 5 ≤ op.toNat) :
    decision op a b = .raise .illegalOp := by
  unfold decision
  split <;> first | omega | rfl

/-- A CMD beat ends in the decision of its command word; only ENCODE and DECODE may start a data phase (R28). -/
theorem acceptCommand_eq (cw : CommandWord) (s : State) :
    acceptCommand cw s =
      .next (if opField cw = 3#4 ∨ opField cw = 4#4
        then s.concludeData (aField cw) (bField cw) (decision (opField cw) (aField cw) (bField cw))
        else s.conclude (decision (opField cw) (aField cw) (bField cw))) := by
  rcases opCode_cases (opField cw) with h | h | h | h | h | h
  · simp [acceptCommand, decode, decision, h, exec, execBitwidth]
  · simp [acceptCommand, decode, decision, h, exec, execFullmask]
  · simp [acceptCommand, decode, decision, h, exec, execBytecount]
  · simp [acceptCommand, decode, decision, h, exec, execEncode]
  · simp [acceptCommand, decode, decision, h, exec, execDecode]
  · have hd : decode cw = .error (.reservedOp (opField cw)) := decode_reserved cw h
    have h3 : ¬(opField cw = 3#4 ∨ opField cw = 4#4) := by
      rintro (h' | h') <;> rw [h'] at h <;> revert h <;> decide
    rw [acceptCommand, hd, if_neg h3, decision_reserved _ _ _ h]
    rfl

end Sys2Proof.Machine
end

