-- ==== Sys2Proof/Laws/PerInstr.lean ====
section
/-! SUPPORT. The family `OperandsPlaced`, one lemma per constructor of `Instr`: the command word of an instruction
holds its code and its two operand words in their fields (spec/30_encoding.md R81, R82). -/

namespace Sys2Proof.Laws

/-- The command word of `i` holds the code of `i` in `CW[67:64]`, which is not reserved, and its operand words in
`CW[63:32]` and `CW[31:0]`. -/
def OperandsPlaced.Statement (i : Instr) : Prop :=
  opField (encode i) = i.opcode ∧ i.opcode.toNat ≤ 4 ∧ bField (encode i) = i.b ∧ aField (encode i) = i.a

theorem OperandsPlaced.bitwidth (a b : Word) : OperandsPlaced.Statement (.bitwidth a b) := by
  simp [OperandsPlaced.Statement, Sys2Proof.encode, Instr.opcode]

theorem OperandsPlaced.fullmask (a b : Word) : OperandsPlaced.Statement (.fullmask a b) := by
  simp [OperandsPlaced.Statement, Sys2Proof.encode, Instr.opcode]

theorem OperandsPlaced.bytecount (a b : Word) : OperandsPlaced.Statement (.bytecount a b) := by
  simp [OperandsPlaced.Statement, Sys2Proof.encode, Instr.opcode]

theorem OperandsPlaced.encode (a b : Word) : OperandsPlaced.Statement (.encode a b) := by
  simp [OperandsPlaced.Statement, Sys2Proof.encode, Instr.opcode]

theorem OperandsPlaced.decode (a b : Word) : OperandsPlaced.Statement (.decode a b) := by
  simp [OperandsPlaced.Statement, Sys2Proof.encode, Instr.opcode]

end Sys2Proof.Laws
end

