-- ==== Sys2Proof/Laws/Step.lean ====
section
/-! SUPPORT. Everything one step can do, said once; and how runs and their beats unfold. -/

namespace Sys2Proof.Machine

/-! ### One step by the kind of its edge -/

theorem step_of_rst (s : State) (h : s.pins.rst = true) : step s = .next s.resetStep := by
  simp [step, edge_of_rst s h]

theorem step_of_waiting (s : State) (h : s.edge = .waiting) : step s = .next s.tick := by simp [step, h]

theorem step_of_cmd (s : State) (cw : CommandWord) (h : s.edge = .beat (.cmd cw)) :
    step s = acceptCommand cw s := by simp [step, h]

theorem step_of_rsp (s : State) (rw : ResponseWord) (h : s.edge = .beat (.rsp rw)) :
    step s = .next s.respondStep := by simp [step, h]

theorem step_of_src (s : State) (v : Octet) (h : s.edge = .beat (.src v)) : step s = .next (s.takeStep v) := by
  simp [step, h]

theorem step_of_out (s : State) (v : Octet) (l : Bool) (h : s.edge = .beat (.out v l)) :
    step s = .next s.emitStep := by simp [step, h]

/-- Everything a step can do (R27, R210): if it answers `next t`, one of these. -/
theorem step_cases (s t : State) (h : step s = .next t) :
    (s.pins.rst = true ∧ t = s.resetStep) ∨
    (s.pins.rst = false ∧ s.resetSeen = true ∧
      ((s.edge = .waiting ∧ beatAt s.ctx s.pins = none ∧ t = s.tick) ∨
       (s.edge = .beat (.cmd s.pins.command) ∧ s.ctx.phase = .idle ∧ s.pins.cmdValid = true ∧
          acceptCommand s.pins.command s = .next t) ∨
       (s.edge = .beat (.rsp s.ctx.rw) ∧ s.ctx.phase = .resp ∧ s.pins.rspReady = true ∧ t = s.respondStep) ∨
       (s.edge = .beat (.src s.pins.srcData) ∧ s.ctx.takeEnabled = true ∧ s.pins.srcValid = true ∧
          t = s.takeStep s.pins.srcData) ∨
       ∃ v, s.edge = .beat (.out v s.ctx.isLast) ∧ s.ctx.emitOctet = some v ∧ s.pins.outReady = true ∧
          t = s.emitStep)) := by
  rcases edge_cases s with ⟨he, hr⟩ | ⟨he, -, -⟩ | ⟨hr, hs, ⟨he, hb⟩ | ⟨b, he, hb⟩⟩
  · rw [step_of_rst s hr] at h
    exact .inl ⟨hr, by cases h; rfl⟩
  · simp [step, he] at h
  · rw [step_of_waiting s he] at h
    exact .inr ⟨hr, hs, .inl ⟨he, hb, by cases h; rfl⟩⟩
  · rcases beatAt_cases _ _ _ hb with ⟨hp, hv, rfl⟩ | ⟨hp, hv, rfl⟩ | ⟨hp, hv, rfl⟩ | ⟨v, hp, hv, rfl⟩
    · rw [step_of_cmd s _ he] at h
      exact .inr ⟨hr, hs, .inr (.inl ⟨he, hp, hv, h⟩)⟩
    · rw [step_of_rsp s _ he] at h
      exact .inr ⟨hr, hs, .inr (.inr (.inl ⟨he, hp, hv, by cases h; rfl⟩))⟩
    · rw [step_of_src s _ he] at h
      exact .inr ⟨hr, hs, .inr (.inr (.inr (.inl ⟨he, hp, hv, by cases h; rfl⟩)))⟩
    · rw [step_of_out s _ _ he] at h
      exact .inr ⟨hr, hs, .inr (.inr (.inr (.inr ⟨v, he, hp, hv, by cases h; rfl⟩)))⟩

/-! ### Runs -/

@[simp] theorem run_zero (s : State) : run 0 s = .next s := rfl

/-- A run of `k + 1` edges whose first has a next state. -/
theorem run_succ (k : Nat) (s t : State) (h : step s = .next t) : run (k + 1) s = run k t := by
  simp only [run, h]

theorem host_run_succ (M : Host.Core) (k : Nat) (s t : M.State) (h : M.step s = .next t) :
    M.run (k + 1) s = M.run k t := by
  rw [Host.Core.run, h]

theorem host_run_succ_refused (M : Host.Core) (k : Nat) (s : M.State) (r : M.Refusal)
    (h : M.step s = .refused r) : M.run (k + 1) s = .refused r := by
  rw [Host.Core.run, h]

/-- `run` is the host's run of the machine. -/
theorem run_eq_host_run (k : Nat) (s : State) : run k s = Host.Core.run Sys2Proof.core k s := by
  induction k generalizing s with
  | zero => rfl
  | succ k ih =>
    cases h : step s with
    | next t => rw [run_succ k s t h, ih]; exact (host_run_succ Sys2Proof.core k s t h).symm
    | fault r => cases r
    | refused r =>
      have h' : run (k + 1) s = .refused r := by simp only [run, h]
      exact h'.trans (host_run_succ_refused Sys2Proof.core k s r h).symm

@[simp] theorem beats_zero (s : State) : beats 0 s = [] := rfl

theorem beats_succ_of_beat (k : Nat) (s t : State) (b : Beat) (he : s.edge = .beat b) (h : step s = .next t) :
    beats (k + 1) s = b :: beats k t := by
  simp only [beats, he, h, List.cons_append, List.nil_append]

theorem beats_succ_of_waiting (k : Nat) (s : State) (he : s.edge = .waiting) :
    beats (k + 1) s = beats k s.tick := by
  simp only [beats, he, step_of_waiting s he, List.nil_append]

theorem beats_succ_of_rst (k : Nat) (s : State) (hr : s.pins.rst = true) :
    beats (k + 1) s = beats k s.resetStep := by
  simp only [beats, edge_of_rst s hr, step_of_rst s hr, List.nil_append]

/-- The ports of the first edge, when the run has a sample for it. -/
@[simp] theorem pins_cons (rs : Bool) (c : Context) (p : Pins) (ps : List Pins) :
    (State.mk rs c (p :: ps)).pins = p := rfl

end Sys2Proof.Machine
end

