-- ==== Sys2Proof/Machine/Listing.lean ====
section
/-! DEFINITION. The listing syntax of spec/30_encoding.md R90: a mnemonic and its operands, then the source octets.
Integers are written in decimal, one of the two forms R90 allows (notes/assumptions/17.md). -/

namespace Sys2Proof.Machine

/-- The mnemonic of an operation (R2, R82). -/
def mnemonic : Instr → String
  | .bitwidth _ _ => "BITWIDTH"
  | .fullmask _ _ => "FULLMASK"
  | .bytecount _ _ => "BYTECOUNT"
  | .encode _ _ => "ENCODE"
  | .decode _ _ => "DECODE"

/-- A hexadecimal digit. -/
def hexDigit (n : Nat) : String :=
  ["0", "1", "2", "3", "4", "5", "6", "7", "8", "9", "A", "B", "C", "D", "E", "F"].getD n ""

/-- An octet as two hexadecimal digits (R8, R90). -/
def hexOctet (v : Octet) : String := hexDigit (v.toNat / 16) ++ hexDigit (v.toNat % 16)

/-- The octets after the colon, `src[0]` first (R90). -/
def listOctets (src : List Octet) : String := src.foldl (fun t v => t ++ " " ++ hexOctet v) ""

/-- The operands of a one-operand operation: `b` is written only where it is not 0 (R90). -/
def listOperand (a b : Word) : String :=
  if b = 0 then toString a.toNat else toString a.toNat ++ ", " ++ toString b.toNat

/-- A command as a line of a listing, with the octets the requester has ready (R90). -/
def listing (i : Instr) (src : List Octet) : String :=
  mnemonic i ++ " " ++
    match i with
    | .bitwidth a b => listOperand a b
    | .fullmask a b => listOperand a b
    | .bytecount a b => listOperand a b
    | .encode a b => toString a.toNat ++ ", " ++ toString b.toNat ++ " :" ++ listOctets src
    | .decode a b => toString a.toNat ++ ", " ++ toString b.toNat ++ " :" ++ listOctets src

end Sys2Proof.Machine
end

