-- ==== Sys2Proof/Tests/Slice0.lean ====
section
/-! SUPPORT. Tests of this model, with their expected results taken from the spec (named in each group's heading), and
one theorem `witness_<Name>` for each statement of Obligations.lean that has hypotheses, showing values that meet
them, with boundary values for each clause. -/

namespace Sys2Proof.Tests

open Sys2Proof Sys2Proof.Machine

/-! ### States to start from -/

/-- A requester that takes whatever is offered and offers nothing. -/
def taking : Pins := { Pins.quiet with rspReady := true, outReady := true }

/-- The same, with a source octet on offer. -/
def supplying (v : Octet) : Pins := { taking with srcValid := true, srcData := v }

/-- The same as `taking`, with a command on offer. -/
def commanding (op : OpCode) (b a : Word) : Pins := { taking with cmdValid := true, cmdOp := op, cmdB := b, cmdA := a }

/-- After reset, these samples to come. -/
def idleWith (ps : List Pins) : State := { State.reset with inputs := ps }

/-- A context in RESP. -/
def inResp (rw : ResponseWord) (go : Bool) (N : BitVec 31) (L : BitVec 32) (nbytes : BitVec 29) : Context :=
  { Context.reset with phase := .resp, rw := rw, go := go, N := N, L := L, nbytes := nbytes }

/-- A context in DATA. -/
def inData (N : BitVec 31) (L : BitVec 32) (nbytes o : BitVec 29) (hold : Option Octet) : Context :=
  { Context.reset with phase := .data, N := N, L := L, nbytes := nbytes, o := o, hold := hold }

/-- A machine past its first reset. -/
def live (c : Context) (ps : List Pins) : State := { resetSeen := true, ctx := c, inputs := ps }

/-- The response word that an outcome leaves to send. -/
def rwOf (x : Outcome) : Option ResponseWord :=
  match x with
  | .next t => some t.ctx.rw
  | _ => none

/-- The context an outcome leaves. -/
def ctxOf (x : Outcome) : Option Context :=
  match x with
  | .next t => some t.ctx
  | _ => none

/-! ### Well-formedness refuses the ill-formed (R82, R83, R88) -/

theorem test_wf_refuses_reserved_word : wellFormedWord 0x5FFFFFFFFFFFFFFFF#68 = false ∧ wellFormedWord 0xF0000000000000000#68 = false := by decide

theorem test_wf_accepts_last_code : wellFormedWord 0x4FFFFFFFFFFFFFFFF#68 = true := by decide

theorem test_wf_fullmask : (Instr.fullmask 33 0).wellFormed = false ∧ (Instr.fullmask 0xFFFFFFFF#32 0).wellFormed = false ∧ (Instr.fullmask 32 0).wellFormed = true := by decide

theorem test_wf_bytecount : (Instr.bytecount 0x80000000#32 0).wellFormed = false ∧ (Instr.bytecount 0x7FFFFFFF#32 5).wellFormed = true := by decide

theorem test_wf_encode : (Instr.encode 0x80000000#32 0).wellFormed = false ∧ (Instr.encode 10 0xFFFFFFFF#32).wellFormed = true := by decide

theorem test_wf_decode : (Instr.decode 0xFFFFFFFF#32 0).wellFormed = false ∧ (Instr.decode 10 1).wellFormed = false ∧ (Instr.decode 10 3).wellFormed = false ∧ (Instr.decode 10 2).wellFormed = true := by decide

theorem test_wf_bitwidth : (Instr.bitwidth 0xFFFFFFFF#32 0xFFFFFFFF#32).wellFormed = true := by decide

/-! ### Decoding words written out from the spec (R81 layout, R92 words) -/

theorem test_decode_bitwidth : decode 0x0000000000000003FF#68 = .ok (.bitwidth 0x3FF#32 0) := by decide

theorem test_decode_fullmask : decode 0x10000000000000020#68 = .ok (.fullmask 0x20#32 0) := by decide

theorem test_decode_bytecount : decode 0x20000000000000009#68 = .ok (.bytecount 9 0) := by decide

theorem test_decode_encode : decode 0x3000000020000000A#68 = .ok (.encode 10 2) := by decide

theorem test_decode_decode : decode 0x4000000030000000A#68 = .ok (.decode 10 3) := by decide

/-- Every bit of both operand fields lands in its place. -/
theorem test_decode_fields : decode 0x389ABCDEF01234567#68 = .ok (.encode 0x01234567#32 0x89ABCDEF#32) := by decide

theorem test_decode_reserved : decode 0x50000000000000000#68 = .error (.reservedOp 5) ∧ decode 0x70000000000000000#68 = .error (.reservedOp 7) ∧ decode 0xFFFFFFFFFFFFFFFFF#68 = .error (.reservedOp 15) := by decide

theorem test_encode_encode : encode (.encode 10 2) = 0x3000000020000000A#68 := by decide

theorem test_table_word : decodeTableWord 72 0x4000000020000000A = some (.decode 10 2) ∧ decodeTableWord 72 0x50000000000000000 = none ∧ decodeTableWord 72 (2 ^ 68) = none := by decide

theorem test_fetch_word : ctxOf (step (State.reset.withFetchWord 72 0x1000000000000000A)) = ctxOf (exec (.fullmask 10 0) State.reset) := by decide

/-! ### One edge for each operation (R110, R120, R130, R140, R160: the examples and the corners) -/

theorem test_bitwidth_1024 : rwOf (step (idleWith [commanding 0 0 1024])) = some 0x00000000B#36 := by decide

theorem test_bitwidth_negative : rwOf (step (idleWith [commanding 0 7 0x80000000#32])) = some 0x000000020#36 := by decide

theorem test_fullmask_32 : rwOf (step (idleWith [commanding 1 0 32])) = some 0x0FFFFFFFF#36 := by decide

theorem test_fullmask_33 : rwOf (step (idleWith [commanding 1 0 33])) = some 0x900000000#36 := by decide

theorem test_bytecount_top : rwOf (step (idleWith [commanding 2 0 0x7FFFFFFF#32])) = some 0x010000000#36 := by decide

theorem test_bytecount_negative : rwOf (step (idleWith [commanding 2 0 0x80000000#32])) = some 0xA00000000#36 := by decide

theorem test_encode_accept : ctxOf (step (idleWith [commanding 3 1 10])) = some (inResp 0x000000002#36 true 10 1 2) := by decide

theorem test_encode_negative : ctxOf (step (idleWith [commanding 3 1 0xFFFFFFFF#32])) = some (inResp 0xA00000000#36 false 0 0 0) := by decide

theorem test_decode_negative_first : rwOf (step (idleWith [commanding 4 3 0xFFFFFFFF#32])) = some 0xA00000000#36 := by decide

theorem test_decode_mismatch : ctxOf (step (idleWith [commanding 4 3 10])) = some (inResp 0xC00000000#36 false 0 0 0) := by decide

theorem test_reserved_op : ctxOf (step (idleWith [commanding 7 0 0])) = some (inResp 0xB00000000#36 false 0 0 0) := by decide

/-! ### The other steps (R29, R32, R33, R210) -/

theorem test_respond : ctxOf (step (live (inResp 0x000000002#36 true 10 2 2) [taking])) = some { inData 10 2 2 0 none with rw := 0x000000002#36, go := true } := by decide

/-- R151: octet 1 of a 10-bit sequence keeps bits 0 and 1 only. -/
theorem test_take_masks : ctxOf (step (live (inData 10 2 2 1 none) [supplying 0x0F#8])) = some (inData 10 2 2 1 (some 0x03#8)) := by decide

theorem test_emit_padding_last : (live (inData 10 1 2 1 none) [taking]).edge = .beat (.out 0x00#8 true) ∧ ctxOf (step (live (inData 10 1 2 1 none) [taking])) = some { inData 10 1 2 2 none with phase := .idle } := by decide

theorem test_reset_drops_hold : ctxOf (step (live (inData 10 2 2 1 (some 0x03#8)) [{ supplying 0xFF#8 with rst := true }])) = some Context.reset := by decide

/-! ### The transaction as a function, and the listing (spec/95_test_vectors.md, R92, R90) -/

theorem test_encode_ten_bits : transact 3 10 2 [0xFF#8, 0xFF#8] = (0x000000002#36, [0xFF#8, 0x03#8]) := by decide

theorem test_decode_ten_bits : transact 4 10 2 [0xA5#8, 0xFE#8] = (0x000000002#36, [0xA5#8, 0x02#8]) := by decide

theorem test_listing : listing (.encode 10 2) [0xFF#8, 0x0A#8] = "ENCODE 10, 2 : FF 0A" := by decide

/-! ### Witnesses: values that meet the hypotheses of the statements -/

theorem witness_BitWidthFromLeadingZeros :
    (31 < 32 ∧ (0x80000000#32).getLsbD 31 = true ∧ (∀ i, i < 32 → 31 < i → (0x80000000#32).getLsbD i = false)) ∧
    (0 < 32 ∧ (1#32).getLsbD 0 = true ∧ (∀ i, i < 32 → 0 < i → (1#32).getLsbD i = false)) ∧
    31 < clz32 0 ∧ clz32 1 < 32 := by decide

theorem witness_BitWidthIsHighestSetBitPlusOne :
    (0x40000000#32).getLsbD 30 = true ∧ (∀ i, i < 32 → 30 < i → (0x40000000#32).getLsbD i = false) ∧
    (1#32 : Word) ≠ 0 ∧ (0x80000000#32).getLsbD 31 = true := by decide

theorem witness_BitWidthBoundsItsValue :
    1 ≤ u32 1 ∧ 1 ≤ u32 0xFFFFFFFF#32 ∧ u32 0 = 0 ∧ (0x80000000#32).getLsbD 31 = true ∧ 32 ≤ 32 ∧
    u32 0x7FFFFFFF#32 ≤ u32 0x80000000#32 := by decide

theorem witness_FullMaskHasExactlyTheLowBits : 32 ≤ 32 ∧ 0 ≤ 32 ∧ 31 < 32 := by decide

theorem witness_FullMaskIsStrictlyIncreasing : 31 ≤ 31 ∧ 0 ≤ 32 ∧ 32 ≤ 32 := by decide

theorem witness_FullMaskThrough33BitIntermediate : 0 ≤ 32 ∧ 32 ≤ 32 := by decide

theorem witness_ByteCountIsCeilingOfEighth : 2 ^ 31 - 1 ≤ Config.nMax := by decide

theorem witness_ByteCountDoesNotWrap :
    (0x7FFFFFF9#32).getLsbD 31 = false ∧ 0x7FFFFFF9 ≤ 0x7FFFFFF9 ∧ 0x7FFFFFF9 ≤ 0x7FFFFFFF ∧
    0x7FFFFFFF ≤ 0x7FFFFFFF := by decide

theorem witness_ByteCountLaws : 1 ≤ 1 ∧ 7 ≤ 8 := by decide

theorem witness_KeepMaskKeepsPositionsBelowN :
    (1 ≤ 10 ∧ 1 < byteCount 10 ∧ 1 = byteCount 10 - 1 ∧ 10 % 8 ≠ 0) ∧
    (1 ≤ 16 ∧ 1 < byteCount 16 ∧ ¬(1 = byteCount 16 - 1 ∧ 16 % 8 ≠ 0) ∧ 1 = byteCount 16 - 1) ∧
    (0 < byteCount 10 ∧ ¬(0 = byteCount 10 - 1 ∧ 10 % 8 ≠ 0)) ∧ 7 < 8 := by decide

theorem witness_OpFieldAloneSelects :
    0x0FFFFFFFFFFFFFFFF#68 &&& 0xF0000000000000000#68 = 0x0#68 <<< 64 ∧
    0x4FFFFFFFFFFFFFFFF#68 &&& 0xF0000000000000000#68 = 0x4#68 <<< 64 ∧
    5 ≤ (5#4).toNat ∧ 0x5FFFFFFFFFFFFFFFF#68 &&& 0xF0000000000000000#68 = (5#4).setWidth 68 <<< 64 := by decide

theorem witness_BitwidthAnswersBitWidth : State.reset.ctx.phase = .idle ∧ 32 ≤ 32 ∧ 31 ≤ 31 := by decide

theorem witness_NegativeWordsHaveFullWidth : State.reset.ctx.phase = .idle ∧ s32 0x80000000#32 < 0 ∧ s32 0xFFFFFFFF#32 < 0 := by decide

theorem witness_FullmaskAnswersMaskOrInvalidWidth :
    State.reset.ctx.phase = .idle ∧ u32 0 ≤ 32 ∧ u32 32 ≤ 32 ∧ s32 33 > 32 ∧ s32 0x80000000#32 < 0 ∧ u32 0x7FFFFFFF#32 > 32 := by decide

theorem witness_BytecountAnswersCountOrInvalidBitCount :
    State.reset.ctx.phase = .idle ∧ (0x7FFFFFFF#32).getLsbD 31 = false ∧ (0#32).getLsbD 31 = false ∧ (0x80000000#32).getLsbD 31 = true ∧
    1 ≤ 7 ∧ 7 ≤ 7 := by decide

theorem witness_EncodeStartsDataPhaseOrInvalidBitCount :
    State.reset.ctx.phase = .idle ∧ (0x80000000#32).getLsbD 31 = true ∧ u32 0 = 0 ∧
    ((0x7FFFFFFF#32).getLsbD 31 = false ∧ u32 0x7FFFFFFF#32 ≠ 0) ∧ ((1#32).getLsbD 31 = false ∧ u32 1 ≠ 0) := by decide

theorem witness_DecodeStartsDataPhaseOrRaises :
    State.reset.ctx.phase = .idle ∧ (0x80000000#32).getLsbD 31 = true ∧
    ((10#32).getLsbD 31 = false ∧ u32 1 ≠ byteCount (u32 10) ∧ u32 3 ≠ byteCount (u32 10)) ∧
    (u32 0 = 0 ∧ (0 : Word) = 0) ∧
    ((0x7FFFFFFF#32).getLsbD 31 = false ∧ u32 0x7FFFFFFF#32 ≠ 0 ∧ u32 0x10000000#32 = byteCount (u32 0x7FFFFFFF#32)) := by
  decide

theorem witness_IgnoredOperandHasNoEffect :
    (commanding 0 0 0).cmdOp.toNat ≤ 2 ∧ (commanding 2 0 0).cmdOp.toNat ≤ 2 ∧
    (opField 0x4FFFFFFFFFFFFFFFF#68).toNat ≤ 4 := by decide

theorem witness_StepRunsDecodedCommand :
    let s := idleWith [commanding 3 2 10]
    s.resetSeen = true ∧ s.pins.rst = false ∧ s.ctx.phase = .idle ∧ s.pins.cmdValid = true ∧
    decode s.pins.command = .ok (.encode 10 2) := by decide

theorem witness_AcceptRecordsTheDecision :
    (let s := idleWith [commanding 4 2 10]
     s.resetSeen = true ∧ s.pins.rst = false ∧ s.ctx.phase = .idle ∧ s.pins.cmdValid = true ∧
     decision s.pins.cmdOp s.pins.cmdA s.pins.cmdB = .respond 2 ∧ (2 : Word) ≠ 0#32) ∧
    (let s := idleWith [commanding 4 3 10]
     s.pins.cmdValid = true ∧ decision s.pins.cmdOp s.pins.cmdA s.pins.cmdB = .raise .lengthMismatch) := by decide

theorem witness_ReservedCodeRaisesIllegalOp :
    (let s := idleWith [commanding 5 0 0]
     s.resetSeen = true ∧ s.pins.rst = false ∧ s.ctx.phase = .idle ∧ s.pins.cmdValid = true ∧ 0x5 ≤ s.pins.cmdOp.toNat) ∧
    0x5 ≤ (idleWith [commanding 15 0 0]).pins.cmdOp.toNat := by decide

theorem witness_RaisedErrorIsOneResponseAndNoData :
    let s := idleWith [commanding 1 0 33]
    s.edge = .beat (.cmd s.pins.command) ∧ decision s.pins.cmdOp s.pins.cmdA s.pins.cmdB = .raise .invalidWidth ∧
    ∃ t, step s = .next t ∧
      (live t.ctx [taking]).ctx = t.ctx ∧ (live t.ctx [taking]).resetSeen = true ∧ (live t.ctx [taking]).pins.rst = false ∧
      (live t.ctx [taking]).pins.rspReady = true ∧ (live t.ctx [Pins.quiet]).pins.rspReady = false := by
  exact ⟨by decide, by decide, _, rfl, rfl, rfl, rfl, rfl, rfl⟩

theorem witness_RespondStartsDataPhaseOrEnds :
    (let s := live (inResp 0x000000002#36 true 10 2 2) [taking]
     s.resetSeen = true ∧ s.pins.rst = false ∧ s.ctx.phase = .resp ∧ s.pins.rspReady = true ∧ s.ctx.go = true) ∧
    (let s := live (inResp 0x900000000#36 false 0 0 0) [taking]
     s.resetSeen = true ∧ s.pins.rst = false ∧ s.ctx.phase = .resp ∧ s.pins.rspReady = true ∧ s.ctx.go = false) := by decide

theorem witness_TakeHoldsTheMaskedOctet :
    let s := live (inData 10 5 2 1 none) [supplying 0xFE#8]
    s.resetSeen = true ∧ s.pins.rst = false ∧ s.pins.srcValid = true ∧ s.ctx.phase = .data ∧ s.ctx.hold = none ∧
    s.ctx.o.toNat < min s.ctx.L.toNat s.ctx.nbytes.toNat := by decide

theorem witness_EmitSendsHeldOctetOrPadding :
    (let s := live (inData 10 2 2 0 (some 0xA5#8)) [taking]
     s.resetSeen = true ∧ s.pins.rst = false ∧ s.pins.outReady = true ∧ s.ctx.phase = .data ∧
     s.ctx.o.toNat < s.ctx.nbytes.toNat ∧ s.ctx.hold ≠ none ∧ s.ctx.o.toNat + 1 ≠ s.ctx.nbytes.toNat) ∧
    (let s := live (inData 10 1 2 1 none) [taking]
     s.resetSeen = true ∧ s.pins.rst = false ∧ s.pins.outReady = true ∧ s.ctx.phase = .data ∧
     s.ctx.o.toNat < s.ctx.nbytes.toNat ∧ s.ctx.L.toNat ≤ s.ctx.o.toNat ∧ s.ctx.o.toNat + 1 = s.ctx.nbytes.toNat) := by decide

theorem witness_OutputsFollowPhase :
    Context.reset.phase = .idle ∧ (inResp 0x000000002#36 true 10 2 2).phase = .resp ∧
    ((inData 10 2 2 1 none).Inv ∧ (inData 10 2 2 1 none).phase = .data) ∧
    ∃ t, step (idleWith [commanding 0 0 1]) = .next t ∧ t.ctx ≠ (idleWith [commanding 0 0 1]).ctx := by
  exact ⟨by decide, by decide, ⟨⟨by decide, by decide, trivial⟩, by decide⟩, _, rfl, by decide⟩

theorem witness_RaisedOutputsStayUntilTheirBeat :
    (let s := idleWith [taking]
     s.resetSeen = true ∧ s.pins.rst = false ∧ s.ctx.outputs.cmdReady = true ∧ cmdBeat s.ctx s.pins = none ∧
     ∃ t, step s = .next t) ∧
    (let s := live (inResp 0x000000002#36 true 10 2 2) [Pins.quiet]
     s.resetSeen = true ∧ s.pins.rst = false ∧ s.ctx.outputs.rspValid = true ∧ rspBeat s.ctx s.pins = none ∧
     ∃ t, step s = .next t) ∧
    (let s := live (inData 10 2 2 0 none) [taking]
     s.resetSeen = true ∧ s.pins.rst = false ∧ s.ctx.outputs.srcReady = true ∧ srcBeat s.ctx s.pins = none ∧
     ∃ t, step s = .next t) ∧
    (let s := live (inData 10 2 2 0 (some 0xA5#8)) [Pins.quiet]
     s.resetSeen = true ∧ s.pins.rst = false ∧ s.ctx.outputs.outValid = true ∧ outBeat s.ctx s.pins = none ∧
     ∃ t, step s = .next t) := by
  exact ⟨⟨by decide, by decide, by decide, by decide, _, rfl⟩, ⟨by decide, by decide, by decide, by decide, _, rfl⟩,
    ⟨by decide, by decide, by decide, by decide, _, rfl⟩, ⟨by decide, by decide, by decide, by decide, _, rfl⟩⟩

theorem witness_CommandPortsDeadDuringTransaction : (inData 10 2 2 0 none).phase ≠ .idle := by decide

theorem witness_ResetAlwaysReachesIdle :
    let s := live (inData 10 2 2 1 (some 0x03#8)) [{ taking with rst := true }, { taking with rst := true }]
    s.pins.rst = true ∧ 1 ≤ 2 ∧ 2 ≤ s.inputs.length ∧ ∀ p ∈ s.inputs.take 2, p.rst = true := by decide

theorem witness_EdgeBeforeFirstResetIsRefused :
    (State.powerUp (inData 10 2 2 1 none) [taking]).pins.rst = false := by decide

theorem witness_EveryEdgeAfterResetHasANextState :
    State.reset.resetSeen = true ∧ (State.powerUp Context.reset [{ taking with rst := true }]).pins.rst = true := by decide

theorem witness_EveryStepKeepsContextInvariant :
    (inData 10 2 2 1 none).Inv ∧ ∃ t, step (live (inData 10 2 2 1 none) [supplying 0xFF#8]) = .next t := by
  exact ⟨⟨by decide, by decide, trivial⟩, _, rfl⟩

theorem witness_EachBeatIsProgress :
    let s := live (inData 10 2 2 1 none) [supplying 0xFF#8]
    s.ctx.Inv ∧ s.edge = .beat (.src 0xFF#8) ∧ (Beat.src 0xFF#8).isCmd = false ∧ ∃ t, step s = .next t := by
  exact ⟨⟨by decide, by decide, trivial⟩, by decide, rfl, _, rfl⟩

theorem witness_WillingRequesterReachesIdle :
    let s := live (inData 10 2 2 0 none) [supplying 0xA5#8, supplying 0xFE#8, supplying 0#8, supplying 0#8]
    s.resetSeen = true ∧ s.ctx.Inv ∧ s.ctx.phase ≠ .idle ∧ s.ctx.remaining ≤ s.inputs.length ∧
    ∀ p ∈ s.inputs.take s.ctx.remaining, p.willing = true := by
  exact ⟨rfl, ⟨by decide, by decide, trivial⟩, by decide, by decide, by decide⟩

theorem witness_BrokenDutyLeavesTheBlockWaiting :
    (let s := live (inResp 0x900000000#36 false 0 0 0) [Pins.quiet, Pins.quiet]
     s.resetSeen = true ∧ 2 ≤ s.inputs.length ∧ (∀ p ∈ s.inputs.take 2, p.rst = false) ∧ s.ctx.phase = .resp ∧
     ∀ p ∈ s.inputs.take 2, p.rspReady = false) ∧
    (let s := live (inData 10 2 2 1 none) [taking]
     s.resetSeen = true ∧ 1 ≤ s.inputs.length ∧ (∀ p ∈ s.inputs.take 1, p.rst = false) ∧ s.ctx.takeEnabled = true ∧
     ∀ p ∈ s.inputs.take 1, p.srcValid = false) ∧
    (let s := live (inData 10 1 2 1 none) [Pins.quiet]
     s.resetSeen = true ∧ 1 ≤ s.inputs.length ∧ (∀ p ∈ s.inputs.take 1, p.rst = false) ∧ s.ctx.emitOctet ≠ none ∧
     ∀ p ∈ s.inputs.take 1, p.outReady = false) := by decide

theorem witness_DeadFieldsAreUnobservable :
    let c := inResp 0x900000000#36 false 0 0 0
    let d := inResp 0x900000000#36 false 77 5 9
    c ≠ d ∧ c.view = d.view ∧ ∃ s t, run 1 (live c [taking]) = .next s ∧ run 1 (live d [taking]) = .next t := by
  exact ⟨by decide, by decide, _, _, rfl, rfl⟩

theorem witness_ResetLeavesNoTrace :
    let s := live (inData 10 2 2 1 (some 0x03#8)) [{ taking with rst := true }, commanding 0 0 1]
    s.pins.rst = true ∧ (∃ t, step s = .next t) ∧ { inData 10 2 2 1 none with phase := .idle }.phase = .idle := by
  exact ⟨by decide, ⟨_, rfl⟩, rfl⟩

/-- A whole transaction, and the same cut off after its TAKE. -/
theorem witness_AnyRequesterSeesOnlyTheTransaction :
    let s := idleWith [commanding 3 1 2, taking, supplying 0xFF#8, taking]
    let whole := [.rsp 0x000000001#36, .src 0xFF#8, .out 0x03#8 true]
    s.resetSeen = true ∧ s.ctx.phase = .idle ∧ (∀ p ∈ s.inputs.take 4, p.rst = false) ∧
    beats 4 s = .cmd 0x30000000100000002#68 :: whole ∧ (∀ b ∈ whole, b.isCmd = false) ∧
    beats 3 s = .cmd 0x30000000100000002#68 :: whole.take 2 ∧
    ∃ t, run 4 s = .next t ∧ t.ctx.phase = .idle := by
  exact ⟨rfl, rfl, by decide, by decide, by decide, by decide, _, rfl, by decide⟩

/-- Two commands, the second taken after a waiting edge. -/
theorem witness_ServedCommandsDeliverExec :
    let cmds : List (CommandWord × List Octet) := [(0x30000000100000002#68, [0xFF#8]), (0x00000000000000400#68, [])]
    let ps := [commanding 3 1 2, taking, supplying 0xFF#8, taking, taking, commanding 0 0 1024, taking]
    (idleWith (ps ++ [taking])).inputs = ps ++ [taking] ∧ State.reset.resetSeen = true ∧ State.reset.ctx.phase = .idle ∧
    serves (cmds.flatMap fun c => transactionBeats c.1 c.2) ps = true := by decide

theorem witness_TransactionCountsItsBeats : (transact 3 10 1 [0xA5#8]).2 ≠ [] := by decide

/-- The octet is offered one edge before it is taken at the earliest: it stands through a waiting requester. -/
theorem witness_SrcDutyLosesNoOctet :
    let s := idleWith [commanding 3 2 9, taking, supplying 0xFF#8, { supplying 0x01#8 with outReady := false },
      supplying 0x01#8, supplying 0x01#8, taking]
    s.resetSeen = true ∧ s.ctx.phase = .idle ∧ (∀ p ∈ s.inputs.take 7, p.rst = false) ∧ keepsSrcDuty 7 s = true ∧
    ∃ t, run 7 s = .next t ∧ t.ctx.phase = .idle := by
  exact ⟨rfl, rfl, by decide, by decide, _, rfl, by decide⟩

theorem witness_StaleOfferIsTakenAsFirstOctet :
    let s := live (inResp 0x000000002#36 true 10 2 2) [supplying 0x77#8, supplying 0x77#8]
    s.resetSeen = true ∧ s.ctx.phase = .resp ∧ s.ctx.go = true ∧ s.ctx.L ≠ 0#32 ∧ s.ctx.nbytes ≠ 0#29 ∧
    s.inputs = supplying 0x77#8 :: supplying 0x77#8 :: [] ∧ (supplying 0x77#8).rst = false ∧
    (supplying 0x77#8).rspReady = true ∧ (supplying 0x77#8).srcValid = true := by decide

theorem witness_OutputBitsAreSourceBitsThenZero : 9 < 10 ∧ 10 ≤ 10 ∧ 15 < 8 * byteCount 10 := by decide

/-- Two sources that agree below bit 10 and differ above it; and two extents that no octet read tells apart. -/
theorem witness_OutputIgnoresBitsBeyondN :
    (1 < byteCount 10 ∧ 7 < 8) ∧
    (∀ i, i < 10 → srcBit 2 [0xA5#8, 0xFE#8] i = srcBit 3 [0xA5#8, 0x02#8, 0x55#8] i) ∧
    ∀ j, j < byteCount 10 → (j < 2 ↔ j < 5) := by decide

theorem witness_LongSourceIsCutShortSourceIsPadded : 1 ≤ 1 ∧ 1 < byteCount 10 := by decide

theorem witness_ZeroBitsHaveNoDataPhase : (1 : Word) ≠ 0 := by decide

theorem witness_WholeOctetsPassUnmasked :
    8 % 8 = 0 ∧ 8 ≤ 8 ∧ 0 < byteCount 8 ∧ [0xFF#8].length = byteCount 8 := by decide

theorem witness_EncodingIsIdempotent :
    ∀ i, i < 10 → srcBit 2 [0xA5#8, 0xFE#8] i = srcBit 2 [0xA5#8, 0x02#8] i := by decide

theorem witness_DecodeOctetsAreEncodes :
    (10#32).getLsbD 31 = false ∧ u32 2 = byteCount (u32 10) ∧ 1 < byteCount (u32 10) := by decide

theorem witness_DecodeIgnoresDirtyTail :
    (10#32).getLsbD 31 = false ∧ u32 2 = byteCount (u32 10) ∧ [0xA5#8, 0xFE#8].length = u32 2 ∧ 9 < u32 10 ∧
    u32 10 ≤ 15 ∧ 15 < 8 * byteCount (u32 10) := by decide

theorem witness_DecodeOfEncodeRoundTrip :
    (10#32).getLsbD 31 = false ∧ u32 2 = byteCount (u32 10) ∧ 9 < u32 10 ∧
    [0xA5#8, 0xFE#8].length = byteCount (u32 10) ∧ u32 10 ≤ 10 ∧ 10 < 8 * byteCount (u32 10) := by decide

end Sys2Proof.Tests
end

/-! SUPPORT and PROOF. The leading-zero form of `BitWidth` (R11, R112): the laws of `bitWidth` and `clz32` on a whole
word, from those of their scans, and the statement they settle. -/

section
namespace Sys2Proof.Machine

/-! ### `bitWidth` and `clz32` on a whole word -/

/-- The two functions split the 32 bits of a word between them (R112). -/
theorem clz32_add_bitWidth (w : Word) : clz32 w + bitWidth w = 32 := zerosBelow_add_widthBelow w 32

/-- `BitWidth` is 0 on a word without a 1 bit, and one more than the index of its highest 1 bit elsewhere (R111). -/
theorem bitWidth_cases (w : Word) :
    (bitWidth w = 0 ∧ ∀ i, i < 32 → w.getLsbD i = false) ∨
    ∃ k, k < 32 ∧ bitWidth w = k + 1 ∧ w.getLsbD k = true ∧ ∀ i, k < i → i < 32 → w.getLsbD i = false :=
  widthBelow_spec w 32

/-- The highest 1 bit is unique, so any description of it gives the width (R111). -/
theorem bitWidth_of_highest_bit {w : Word} {k : Nat} (hk : k < 32) (hbit : w.getLsbD k = true)
    (habove : ∀ i, k < i → i < 32 → w.getLsbD i = false) : bitWidth w = k + 1 := by
  obtain ⟨-, hzero⟩ | ⟨m, hm, hwidth, hbit', habove'⟩ := bitWidth_cases w
  · simp [hzero k hk] at hbit
  · rcases Nat.lt_trichotomy k m with hlt | rfl | hgt
    · simp [habove m hlt hm] at hbit'
    · exact hwidth
    · simp [habove' k hgt hk] at hbit

theorem bitWidth_zero : bitWidth 0 = 0 := by
  obtain ⟨hwidth, -⟩ | ⟨k, -, -, hbit, -⟩ := bitWidth_cases 0
  · exact hwidth
  · simp at hbit

theorem clz32_zero : clz32 0 = 32 := by
  have hsum := clz32_add_bitWidth 0
  rwa [bitWidth_zero] at hsum

theorem clz32_of_highest_bit {w : Word} {k : Nat} (hk : k < 32) (hbit : w.getLsbD k = true)
    (habove : ∀ i, k < i → i < 32 → w.getLsbD i = false) : clz32 w = 31 - k := by
  have hwidth := bitWidth_of_highest_bit hk hbit habove
  have hsum := clz32_add_bitWidth w
  omega

/-- The bit at which the count of leading zeros stops is a 1 (R11). -/
theorem getLsbD_after_clz32 {w : Word} (h : clz32 w < 32) : w.getLsbD (31 - clz32 w) = true := by
  have hsum := clz32_add_bitWidth w
  obtain ⟨hwidth, -⟩ | ⟨k, -, hwidth, hbit, -⟩ := bitWidth_cases w
  · omega
  · rwa [show 31 - clz32 w = k by omega]

/-- Settles O1: `clz32` and `bitWidth` add up to 32, so the highest 1 bit, where there is one, fixes both. -/
theorem bitWidthFromLeadingZeros : Obligations.BitWidthFromLeadingZeros := by
  refine ⟨clz32_zero, bitWidth_zero, fun _ _ => clz32_of_highest_bit, fun w => zerosBelow_zero w 32,
    fun _ => getLsbD_after_clz32, fun w => ?_⟩
  have hsum := clz32_add_bitWidth w
  omega

end Sys2Proof.Machine
end

/-! SUPPORT and PROOF. The steps ACCEPT, TAKE and EMIT and the outputs phase by phase (spec/10_state.md R25, R27, R28,
R32, R33): when each step is enabled, its beat, what it leaves, and the statements these settle. -/

section
namespace Sys2Proof.Machine

/-! ### The edge that carries a step -/

/-- Where the context and the ports make a beat, that beat is the edge (R24). -/
theorem edge_of_beatAt {s : State} {b : Beat} (hs : s.resetSeen = true) (hr : s.pins.rst = false)
    (hb : beatAt s.ctx s.pins = some b) : s.edge = .beat b :=
  (edge_eq_beat_iff s b).mpr ⟨hr, hs, hb⟩

/-- In IDLE an offered command is a CMD beat (R28). -/
theorem edge_of_offer {s : State} (hs : s.resetSeen = true) (hr : s.pins.rst = false) (hp : s.ctx.phase = .idle)
    (hv : s.pins.cmdValid = true) : s.edge = .beat (.cmd s.pins.command) :=
  edge_of_beatAt hs hr (by rw [beatAt_of_idle _ _ hp, if_pos hv])

/-- Where TAKE is enabled, an offered octet is an SRC beat (R32). -/
theorem edge_of_take {s : State} (hs : s.resetSeen = true) (hr : s.pins.rst = false)
    (ht : s.ctx.takeEnabled = true) (hv : s.pins.srcValid = true) : s.edge = .beat (.src s.pins.srcData) :=
  edge_of_beatAt hs hr (by rw [beatAt_of_takeEnabled _ _ ht, if_pos hv])

/-- Where EMIT offers an octet that the requester takes, the edge is its OUT beat (R33). -/
theorem edge_of_emit {s : State} {v : Octet} (hs : s.resetSeen = true) (hr : s.pins.rst = false)
    (he : s.ctx.emitOctet = some v) (hv : s.pins.outReady = true) : s.edge = .beat (.out v s.ctx.isLast) :=
  edge_of_beatAt hs hr (by rw [beatAt_of_emitOctet _ _ _ he, if_pos hv])

/-! ### What is live in each phase -/

theorem view_of_idle {c : Context} (h : c.phase = .idle) : c.view = .idle := by
  simp [Context.view, h]

theorem view_of_data {c : Context} (h : c.phase = .data) : c.view = .data c.N c.L c.nbytes c.o c.hold := by
  simp [Context.view, h]

/-! ### Step TAKE -/

/-- Settles O30: TAKE's enabling condition is `src_ready`, and the step writes `hold` alone. -/
theorem takeHoldsTheMaskedOctet : Obligations.TakeHoldsTheMaskedOctet := by
  refine ⟨takeEnabled_iff, fun s hs hr hv hdata hnone hlt => ?_⟩
  have hedge := edge_of_take hs hr ((takeEnabled_iff s.ctx).mpr ⟨hdata, hnone, hlt⟩) hv
  exact ⟨s.takeStep s.pins.srcData, hedge, step_of_src s _ hedge, view_of_data hdata, hs, rfl⟩

/-! ### Step EMIT -/

/-- Where EMIT is enabled it offers the held octet, or zero padding (R33). -/
theorem emitOctet_of_enabled {c : Context} (hdata : c.phase = .data) (hlt : c.o.toNat < c.nbytes.toNat)
    (hsend : c.hold ≠ none ∨ c.L.toNat ≤ c.o.toNat) : c.emitOctet = some (c.hold.getD 0x00#8) := by
  refine (emitOctet_eq_some_iff c _).mpr ⟨hdata, hlt, ?_⟩
  cases hheld : c.hold with
  | some v => exact .inl rfl
  | none => exact .inr ⟨rfl, hsend.resolve_left (absurd hheld), rfl⟩

/-- When `out_valid` is 1 (R33). -/
theorem outValid_iff (c : Context) : c.outputs.outValid = true ↔
    c.phase = .data ∧ c.o.toNat < c.nbytes.toNat ∧ (c.hold ≠ none ∨ c.L.toNat ≤ c.o.toNat) := by
  constructor
  · intro h
    obtain ⟨v, hv⟩ := Option.isSome_iff_exists.mp h
    obtain ⟨hdata, hlt, hheld | ⟨-, hpad, -⟩⟩ := (emitOctet_eq_some_iff c v).mp hv
    · exact ⟨hdata, hlt, .inl (by simp [hheld])⟩
    · exact ⟨hdata, hlt, .inr hpad⟩
  · rintro ⟨hdata, hlt, hsend⟩
    exact Option.isSome_iff_exists.mpr ⟨_, emitOctet_of_enabled hdata hlt hsend⟩

theorem isLast_iff (c : Context) : c.isLast = true ↔ c.o.toNat + 1 = c.nbytes.toNat := decide_eq_true_iff

/-- `o` counts up to `nbytes` without wrapping (R33). -/
theorem toNat_emitStep_o {s : State} (hlt : s.ctx.o.toNat < s.ctx.nbytes.toNat) :
    s.emitStep.ctx.o.toNat = s.ctx.o.toNat + 1 := by
  have hbound := s.ctx.nbytes.isLt
  rw [State.emitStep_o, BitVec.toNat_add, BitVec.toNat_ofNat]
  omega

/-- After the last octet the block is in IDLE (R33). -/
theorem view_emitStep_of_last {s : State} (h : s.ctx.isLast = true) : s.emitStep.ctx.view = .idle :=
  view_of_idle (by simp [h])

/-- After every other octet the data phase goes on (R33). -/
theorem view_emitStep_of_not_last {s : State} (hdata : s.ctx.phase = .data) (h : ¬ s.ctx.isLast = true) :
    s.emitStep.ctx.view = .data s.ctx.N s.ctx.L s.ctx.nbytes s.emitStep.ctx.o none :=
  view_of_data (by simp [h, hdata])

/-- Settles O31: EMIT's enabling condition is `out_valid`; its end is told apart by `isLast`. -/
theorem emitSendsHeldOctetOrPadding : Obligations.EmitSendsHeldOctetOrPadding := by
  refine ⟨outValid_iff, fun s hs hr hv hdata hlt hsend => ?_⟩
  have hedge := edge_of_emit hs hr (emitOctet_of_enabled hdata hlt hsend) hv
  have hlast : s.ctx.isLast = decide (s.ctx.o.toNat = s.ctx.nbytes.toNat - 1) :=
    decide_eq_decide.mpr (by omega)
  exact ⟨s.emitStep, hlast ▸ hedge, step_of_out s _ _ hedge, rfl, toNat_emitStep_o hlt,
    fun h => view_emitStep_of_last ((isLast_iff _).mpr h),
    fun h => view_emitStep_of_not_last hdata (mt (isLast_iff _).mp h), hs, rfl⟩

/-! ### The outputs -/

theorem takeEnabled_of_not_data {c : Context} (h : c.phase ≠ .data) : c.takeEnabled = false :=
  Bool.eq_false_iff.mpr fun ht => h ((takeEnabled_iff c).mp ht).1

theorem outValid_of_not_data {c : Context} (h : c.phase ≠ .data) : c.outputs.outValid = false :=
  Bool.eq_false_iff.mpr fun hv => h ((outValid_iff c).mp hv).1

/-- In a DATA context that meets the invariant, TAKE is enabled exactly where EMIT is not (R34): an octet held, or
`o ≥ L`, is one to send, and otherwise one is due from the source. -/
theorem takeEnabled_iff_not_outValid {c : Context} (hinv : c.Inv) (hdata : c.phase = .data) :
    c.takeEnabled = true ↔ ¬ c.outputs.outValid = true := by
  have hlt : c.o.toNat < c.nbytes.toNat := by
    simp only [Context.Inv, hdata] at hinv
    obtain ⟨-, hlt, -⟩ := hinv
    exact hlt
  rw [takeEnabled_iff, outValid_iff, Nat.lt_min]
  simp only [hdata, hlt, true_and, and_true, not_or, not_not, Nat.not_le]

/-- A step that changes the context is a RESET or a beat: an edge at which the block waits leaves it (R27). -/
theorem reset_or_beat_of_ctx_ne {s t : State} (h : step s = .next t) (hne : t.ctx ≠ s.ctx) :
    s.edge = .reset ∨ ∃ b, s.edge = .beat b := by
  cases hedge : s.edge with
  | reset => exact .inl rfl
  | beat b => exact .inr ⟨b, rfl⟩
  | beforeReset => simp [step, hedge] at h
  | waiting =>
    rw [step_of_waiting s hedge] at h
    cases h
    exact absurd s.tick_ctx hne

/-- Settles O32, phase by phase. -/
theorem outputsFollowPhase : Obligations.OutputsFollowPhase := by
  refine ⟨fun c hidle => ?_, fun c hresp => ?_, fun c hinv hdata => ?_, fun s t => reset_or_beat_of_ctx_ne⟩
  · have hnd : c.phase ≠ .data := by simp [hidle]
    exact ⟨decide_eq_true hidle, decide_eq_false (by simp [hidle]), takeEnabled_of_not_data hnd,
      outValid_of_not_data hnd⟩
  · have hnd : c.phase ≠ .data := by simp [hresp]
    exact ⟨decide_eq_false (by simp [hresp]), decide_eq_true hresp, takeEnabled_of_not_data hnd,
      outValid_of_not_data hnd, if_pos hresp, if_pos hresp, if_pos hresp⟩
  · refine ⟨decide_eq_false (by simp [hdata]), decide_eq_false (by simp [hdata]), ?_⟩
    rw [Bool.eq_iff_iff, Bool.not_eq_true', ← Bool.not_eq_true]
    exact takeEnabled_iff_not_outValid hinv hdata

/-! ### Step ACCEPT -/

/-- The state after a CMD beat whose command word has the fields `op`, `b` and `a`: the end of its decision phase,
which may start a data phase for ENCODE and DECODE only (R28). -/
def State.accepted (s : State) (op : OpCode) (a b : Word) : State :=
  if op = 3#4 ∨ op = 4#4 then s.concludeData a b (decision op a b) else s.conclude (decision op a b)

/-- `State.accepted` is what step ACCEPT leaves. -/
theorem step_of_offer {s : State} (hs : s.resetSeen = true) (hr : s.pins.rst = false) (hp : s.ctx.phase = .idle)
    (hv : s.pins.cmdValid = true) : step s = .next (s.accepted s.pins.cmdOp s.pins.cmdA s.pins.cmdB) := by
  rw [step_of_cmd s _ (edge_of_offer hs hr hp hv), acceptCommand_eq, opField_command, aField_command, bField_command]
  rfl

/-- `t` is `s` an edge later, with the response word of the decision `d` waiting in RESP: what every command leaves,
with a data phase to come or without (R28). -/
def State.Answers (s : State) (d : Decision) (t : State) : Prop :=
  t.ctx.phase = .resp ∧ t.ctx.rw = decisionWord d ∧ t.resetSeen = s.resetSeen ∧ t.inputs = s.inputs.tail

theorem State.answers_conclude (s : State) (d : Decision) : s.Answers d (s.conclude d) := by
  cases d <;> exact ⟨rfl, rfl, rfl, rfl⟩

theorem State.answers_concludeData (s : State) (a b : Word) (d : Decision) : s.Answers d (s.concludeData a b d) := by
  cases d with
  | respond v =>
    exact ⟨s.respondData_phase a b v, s.respondData_rw a b v, s.respondData_resetSeen a b v,
      s.respondData_inputs a b v⟩
  | raise e => exact ⟨rfl, rfl, rfl, rfl⟩

theorem State.answers_accepted (s : State) (op : OpCode) (a b : Word) :
    s.Answers (decision op a b) (s.accepted op a b) := by
  unfold State.accepted
  split
  · exact s.answers_concludeData a b _
  · exact s.answers_conclude _

/-- An operation other than ENCODE and DECODE has no data phase (R30). -/
theorem State.conclude_go (s : State) (d : Decision) : (s.conclude d).ctx.go = false := by
  cases d <;> rfl

/-- A data phase follows the success of ENCODE or DECODE with a count other than 0 (R28). -/
theorem State.concludeData_go_iff (s : State) (a b : Word) (d : Decision) :
    (s.concludeData a b d).ctx.go = true ↔ ∃ v, d = .respond v ∧ v ≠ 0#32 := by
  cases d <;> simp

theorem State.accepted_go_iff (s : State) (op : OpCode) (a b : Word) :
    (s.accepted op a b).ctx.go = true ↔
      (op = 3#4 ∨ op = 4#4) ∧ ∃ v, decision op a b = .respond v ∧ v ≠ 0#32 := by
  unfold State.accepted
  split
  next hop => simp [hop, State.concludeData_go_iff]
  next hop => simp [hop, State.conclude_go]

/-- ENCODE and DECODE answer the byte count of a legal count or raise (R140, R160). -/
theorem decision_respond_of_codec {op : OpCode} {a b v : Word} (hop : op = 3#4 ∨ op = 4#4)
    (h : decision op a b = .respond v) : a.getLsbD 31 = false ∧ v = BitVec.ofNat 32 (byteCount (u32 a)) := by
  rcases hop with rfl | rfl
  · exact decideEncode_respond a v h
  · obtain ⟨hsign, -, hv⟩ := decideDecode_respond a b v h
    exact ⟨hsign, hv⟩

/-- The 31 bits of `N` hold every legal count (R26, R83). -/
theorem toNat_setWidth_legal_count {a : Word} (h : a.getLsbD 31 = false) : (a.setWidth 31).toNat = u32 a := by
  rw [BitVec.toNat_setWidth]
  exact Nat.mod_eq_of_lt (u32_lt_of_getLsbD a h)

/-- The 29 bits of `nbytes` hold the byte count of every legal count (R26, R131). -/
theorem setWidth_byteCount_word {a v : Word} (h : a.getLsbD 31 = false)
    (hv : v = BitVec.ofNat 32 (byteCount (u32 a))) : (v.setWidth 29).setWidth 32 = v := by
  have hlt := byteCount_lt _ (u32_lt_of_getLsbD a h)
  have hval : v.toNat = byteCount (u32 a) := by rw [hv, toNat_byteCount_word a h]
  apply BitVec.eq_of_toNat_eq
  rw [BitVec.toNat_setWidth, BitVec.toNat_setWidth, hval]
  omega

/-- What step ACCEPT writes where a data phase follows, without loss (R28). -/
theorem State.accepted_operands {s : State} {op : OpCode} {a b : Word} (hgo : (s.accepted op a b).ctx.go = true) :
    (s.accepted op a b).ctx.N.toNat = u32 a ∧ (s.accepted op a b).ctx.L = b ∧
      decision op a b = .respond ((s.accepted op a b).ctx.nbytes.setWidth 32) := by
  obtain ⟨hop, v, hdec, hne⟩ := (s.accepted_go_iff op a b).mp hgo
  obtain ⟨hsign, hv⟩ := decision_respond_of_codec hop hdec
  rw [State.accepted, if_pos hop, hdec, State.concludeData_respond, State.respondData_of_ne s a b v hne]
  exact ⟨toNat_setWidth_legal_count hsign, rfl, by rw [setWidth_byteCount_word hsign hv]⟩

/-- Settles O26: the state after the CMD beat is the end of the decision phase of the command on the ports. -/
theorem acceptRecordsTheDecision : Obligations.AcceptRecordsTheDecision := by
  intro s hs hr hp hv
  obtain ⟨hphase, hrw, hseen, hinputs⟩ := s.answers_accepted s.pins.cmdOp s.pins.cmdA s.pins.cmdB
  refine ⟨s.accepted s.pins.cmdOp s.pins.cmdA s.pins.cmdB, edge_of_offer hs hr hp hv, step_of_offer hs hr hp hv,
    hphase, fun v hdec => ?_, fun e hdec => ?_, s.accepted_go_iff _ _ _, fun hgo => ?_, hseen.trans hs, hinputs⟩
  · rw [hrw, hdec]; rfl
  · rw [hrw, hdec]; rfl
  · obtain ⟨hN, hL, hdec⟩ := State.accepted_operands hgo
    exact ⟨hN, by rw [hL, u32], hdec⟩

end Sys2Proof.Machine
end

/-! SUPPORT and PROOF. `KeepMask` octet by octet (spec/20_memory.md R58). -/

section
namespace Sys2Proof.Machine

/-! ### The two values of `keepMask` -/

/-- A last octet that is not whole keeps its `N % 8` low bits. -/
theorem keepMask_of_partial_last {j N : Nat} (hlast : j = byteCount N - 1) (hpart : N % 8 ≠ 0) :
    keepMask j N = (fullMask (N % 8)).setWidth 8 := if_pos ⟨hlast, hpart⟩

/-- A whole octet is kept as it is. -/
theorem keepMask_of_whole {j N : Nat} (hwhole : ¬(j = byteCount N - 1 ∧ N % 8 ≠ 0)) : keepMask j N = 0xFF#8 :=
  if_neg hwhole

/-! ### The table of the last octet -/

/-- The table of R58: the mask of the last octet at each value of `N % 8`. -/
def lastOctetMasks : List Octet := [0xFF#8, 0x01#8, 0x03#8, 0x07#8, 0x0F#8, 0x1F#8, 0x3F#8, 0x7F#8]

/-- Every entry but the first is a `FullMask`; the first would be `0x00` as one. -/
theorem lastOctetMasks_of_ne_zero : ∀ r, r < 8 → r ≠ 0 → lastOctetMasks[r]? = some ((fullMask r).setWidth 8) := by
  decide

theorem lastOctetMasks_mod_eight (N : Nat) : lastOctetMasks[N % 8]? = some (keepMask (byteCount N - 1) N) := by
  by_cases hr : N % 8 = 0
  · rw [keepMask_of_whole fun ⟨_, hpart⟩ => hpart hr, hr]
    rfl
  · rw [keepMask_of_partial_last rfl hr]
    exact lastOctetMasks_of_ne_zero _ (Nat.mod_lt N (by decide)) hr

/-- Settles O10: the two branches of `KeepMask`, the table of its last octet, and its bits one by one. -/
theorem keepMaskKeepsPositionsBelowN : Obligations.KeepMaskKeepsPositionsBelowN := by
  intro N j _ hj
  refine ⟨keepMask_of_partial_last, keepMask_of_whole, ?_, fun p => getLsbD_keepMask j N p hj⟩
  rintro rfl
  exact lastOctetMasks_mod_eight N

end Sys2Proof.Machine
end

/-! SUPPORT and PROOF. The command word and the response word (spec/30_encoding.md R81 to R88, R92): the decoder as
the inverse of the encoder, the masked compare of the code map, the value of a response word, the operand `b` that
three operations ignore, and the statements these settle. -/

section
namespace Sys2Proof

/-! ### A command word and its fields -/

/-- A command word is determined by its three fields (R81). -/
theorem commandWord_eq_iff {op : OpCode} {b a : Word} {cw : CommandWord} :
    commandWord op b a = cw ↔ op = opField cw ∧ b = bField cw ∧ a = aField cw := by
  constructor
  · rintro rfl
    simp
  · rintro ⟨rfl, rfl, rfl⟩
    exact commandWord_fields cw

/-- AND acts on each field of a command word apart. -/
theorem commandWord_and (op op' : OpCode) (b b' a a' : Word) :
    commandWord op b a &&& commandWord op' b' a' = commandWord (op &&& op') (b &&& b') (a &&& a') := by
  refine BitVec.eq_of_getLsbD_eq fun i hi => ?_
  simp only [BitVec.getLsbD_and, getLsbD_commandWord _ _ _ i hi]
  split
  next => rfl
  next => split <;> rfl

/-- The mask of the code map is the command word with every bit of its `op` field set (R82). -/
theorem opMask_eq_commandWord : 0xF0000000000000000#68 = commandWord (BitVec.allOnes 4) 0#32 0#32 := by decide

/-- A code shifted left by 64 is the command word with that code and zero operands (R82). -/
theorem shifted_code_eq_commandWord (op : OpCode) : op.setWidth 68 <<< 64 = commandWord op 0#32 0#32 := by
  simp [commandWord]

/-- The masked compare of R82 compares the `op` field. -/
theorem and_opMask_eq_iff (cw : CommandWord) (op : OpCode) :
    cw &&& 0xF0000000000000000#68 = op.setWidth 68 <<< 64 ↔ opField cw = op := by
  have hmask : cw &&& 0xF0000000000000000#68 = commandWord (opField cw) 0#32 0#32 := by
    rw [opMask_eq_commandWord]
    conv_lhs => rw [← commandWord_fields cw]
    rw [commandWord_and, BitVec.and_allOnes, BitVec.and_zero, BitVec.and_zero]
  rw [hmask, shifted_code_eq_commandWord, commandWord_eq_iff, opField_commandWord, bField_commandWord,
    aField_commandWord]
  simp

/-! ### The decoder is the inverse of the encoder -/

theorem encode_eq_iff {i : Instr} {cw : CommandWord} :
    encode i = cw ↔ i.opcode = opField cw ∧ i.b = bField cw ∧ i.a = aField cw := commandWord_eq_iff

@[simp] theorem decode_encode (i : Instr) : decode (encode i) = .ok i := by
  cases i <;> simp [decode, encode, Instr.opcode, Instr.a, Instr.b]

/-- A word with one of the five codes is the command word of an operation (R82). -/
theorem exists_encode_eq {cw : CommandWord} (h : (opField cw).toNat ≤ 4) : ∃ i, encode i = cw := by
  rcases Machine.opCode_cases (opField cw) with hop | hop | hop | hop | hop | hop
  · exact ⟨.bitwidth (aField cw) (bField cw), encode_eq_iff.mpr ⟨hop.symm, rfl, rfl⟩⟩
  · exact ⟨.fullmask (aField cw) (bField cw), encode_eq_iff.mpr ⟨hop.symm, rfl, rfl⟩⟩
  · exact ⟨.bytecount (aField cw) (bField cw), encode_eq_iff.mpr ⟨hop.symm, rfl, rfl⟩⟩
  · exact ⟨.encode (aField cw) (bField cw), encode_eq_iff.mpr ⟨hop.symm, rfl, rfl⟩⟩
  · exact ⟨.decode (aField cw) (bField cw), encode_eq_iff.mpr ⟨hop.symm, rfl, rfl⟩⟩
  · omega

/-- A word with one of the five codes decodes to an operation, of which it is the encoding (R87). -/
theorem exists_decode_eq_ok {cw : CommandWord} (h : (opField cw).toNat ≤ 4) :
    ∃ i, decode cw = .ok i ∧ encode i = cw := by
  obtain ⟨i, rfl⟩ := exists_encode_eq h
  exact ⟨i, decode_encode i, rfl⟩

/-- The decoder answers a reserved code exactly where the word holds one (R88). -/
theorem decode_eq_error_iff (cw : CommandWord) :
    decode cw = .error (.reservedOp (opField cw)) ↔ 5 ≤ (opField cw).toNat := by
  refine ⟨fun herr => ?_, Machine.decode_reserved cw⟩
  by_contra hlt
  obtain ⟨i, hok, -⟩ := exists_decode_eq_ok (cw := cw) (by omega)
  rw [hok] at herr
  cases herr

/-- The decoder answers an operation exactly on its encoding (R82). -/
theorem decode_eq_ok_iff {cw : CommandWord} {i : Instr} : decode cw = .ok i ↔ encode i = cw := by
  refine ⟨fun hdec => ?_, fun henc => henc ▸ decode_encode i⟩
  by_cases h : (opField cw).toNat ≤ 4
  · obtain ⟨j, hok, henc⟩ := exists_decode_eq_ok h
    obtain rfl : j = i := Except.ok.inj (hok.symm.trans hdec)
    exact henc
  · rw [Machine.decode_reserved cw (by omega)] at hdec
    cases hdec

/-- Among the instructions with the operands of `cw`, the masked compare picks the one that `cw` decodes to (R82). -/
theorem decode_eq_ok_iff_masked {cw : CommandWord} {i : Instr} (ha : i.a = aField cw) (hb : i.b = bField cw) :
    decode cw = .ok i ↔ cw &&& 0xF0000000000000000#68 = i.opcode.setWidth 68 <<< 64 := by
  rw [decode_eq_ok_iff, encode_eq_iff, and_opMask_eq_iff]
  simp only [ha, hb, and_true, eq_comm]

/-- Settles O13: each operation by its own masked compare, and the reserved codes by what is left. -/
theorem opFieldAloneSelects : Obligations.OpFieldAloneSelects := by
  refine fun cw => ⟨decode_eq_ok_iff_masked rfl rfl, decode_eq_ok_iff_masked rfl rfl, decode_eq_ok_iff_masked rfl rfl,
    decode_eq_ok_iff_masked rfl rfl, decode_eq_ok_iff_masked rfl rfl, ?_⟩
  simp only [decode_eq_error_iff, and_opMask_eq_iff, exists_eq_right']

end Sys2Proof

namespace Sys2Proof.Machine

/-! ### What a CMD beat does with its word -/

theorem acceptCommand_of_ok {cw : CommandWord} {i : Instr} (h : decode cw = .ok i) (s : State) :
    acceptCommand cw s = exec i s := by
  simp only [acceptCommand, h]

theorem acceptCommand_of_error {cw : CommandWord} {e : DecodeError} (h : decode cw = .error e) (s : State) :
    acceptCommand cw s = .next (s.raise .illegalOp) := by
  simp only [acceptCommand, h]

/-- Settles O12: a code up to 4 is an operation's, and every other is reserved. -/
theorem everyWordSelectsOrIsReserved : Obligations.EveryWordSelectsOrIsReserved := by
  intro cw
  by_cases h : (opField cw).toNat ≤ 4
  · obtain ⟨i, hok, henc⟩ := exists_decode_eq_ok h
    exact .inl ⟨i, hok, henc, decide_eq_true h, acceptCommand_of_ok hok⟩
  · have herr := decode_reserved cw (by omega)
    exact .inr ⟨herr, by omega, decide_eq_false h, acceptCommand_of_error herr⟩

/-! ### The response word -/

/-- The value of a response word (R84): its fields do not overlap, so OR adds them up. -/
theorem toNat_responseWord (err : Bool) (code : BitVec 3) (data : Word) :
    (responseWord err code data).toNat = err.toNat * 2 ^ 35 + code.toNat * 2 ^ 32 + data.toNat := by
  have herr := err.toNat_lt
  have hcode := code.isLt
  have hdata := data.isLt
  have hlow : code.toNat <<< 32 + data.toNat < 2 ^ 35 := by rw [Nat.shiftLeft_eq]; omega
  calc (responseWord err code data).toNat
      = err.toNat <<< 35 ||| code.toNat <<< 32 ||| data.toNat := by
        simp only [responseWord, BitVec.toNat_or, BitVec.toNat_shiftLeft, BitVec.toNat_setWidth,
          BitVec.toNat_ofBool, Nat.shiftLeft_eq]
        congr 1
        · congr 1 <;> omega
        · omega
    _ = err.toNat <<< 35 + (code.toNat <<< 32 + data.toNat) := by
        rw [Nat.or_assoc, ← Nat.shiftLeft_add_eq_or_of_lt hdata, ← Nat.shiftLeft_add_eq_or_of_lt hlow]
    _ = err.toNat * 2 ^ 35 + code.toNat * 2 ^ 32 + data.toNat := by
        rw [Nat.shiftLeft_eq, Nat.shiftLeft_eq, Nat.add_assoc]

/-- Every decision phase ends in a response word that the block can send (R84, R182). -/
theorem responseOk_decisionWord (d : Decision) : responseOk (decisionWord d) := by
  cases d with
  | respond v => simp [decisionWord, responseOk]
  | raise e => simp [decisionWord, responseOk, errorCode_range e]

/-- `err` tells a raised error from a success (R84). -/
theorem rspErr_decisionWord_iff (d : Decision) : rspErr (decisionWord d) = true ↔ ∃ e, d = .raise e := by
  cases d with
  | respond v => simp [decisionWord]
  | raise e => simp [decisionWord]

/-- Settles O15: the layout field by field, and the two ends of a decision phase. -/
theorem responseWordLayout : Obligations.ResponseWordLayout :=
  ⟨fun err code data => ⟨rspErr_responseWord err code data, rspCode_responseWord err code data,
    rspData_responseWord err code data, toNat_responseWord err code data⟩,
    fun _ _ _ => ⟨responseOk_decisionWord _, rspErr_decisionWord_iff _⟩⟩

/-! ### The operand that BITWIDTH, FULLMASK and BYTECOUNT ignore -/

/-- The decision phases of the codes 0 to 2 do not read `b` (R86). -/
theorem decision_ignores_b {op : OpCode} (h : op.toNat ≤ 2) (a b b' : Word) :
    decision op a b = decision op a b' := by
  rcases opCode_cases op with rfl | rfl | rfl | rfl | rfl | hop
  · rfl
  · rfl
  · rfl
  · exact absurd h (by decide)
  · exact absurd h (by decide)
  · omega

/-- Only ENCODE and DECODE may start a data phase (R28). -/
theorem State.accepted_of_no_data_phase {op : OpCode} (h : op.toNat ≤ 2) (s : State) (a b : Word) :
    s.accepted op a b = s.conclude (decision op a b) := by
  refine if_neg ?_
  rintro (rfl | rfl) <;> exact absurd h (by decide)

/-- A decision phase without a data phase leaves nothing of the sample that carried its command. -/
theorem State.conclude_head (rs : Bool) (c : Context) (p q : Pins) (rest : List Pins) (d : Decision) :
    (State.mk rs c (p :: rest)).conclude d = (State.mk rs c (q :: rest)).conclude d := by
  cases d <;> rfl

theorem acceptCommand_head (rs : Bool) (c : Context) (p q : Pins) (rest : List Pins) (cw : CommandWord) :
    acceptCommand cw ⟨rs, c, p :: rest⟩ = acceptCommand cw ⟨rs, c, q :: rest⟩ := by
  cases hdec : decode cw with
  | ok i =>
    rw [acceptCommand_of_ok hdec, acceptCommand_of_ok hdec]
    cases i <;> rfl
  | error e =>
    rw [acceptCommand_of_error hdec, acceptCommand_of_error hdec]
    rfl

/-- A step reads the coming sample only through what kind of edge it makes. -/
theorem step_eq_of_edge_eq {rs : Bool} {c : Context} {p q : Pins} {rest : List Pins}
    (h : (State.mk rs c (p :: rest)).edge = (State.mk rs c (q :: rest)).edge) :
    step ⟨rs, c, p :: rest⟩ = step ⟨rs, c, q :: rest⟩ := by
  unfold step
  rw [h]
  cases (State.mk rs c (q :: rest)).edge with
  | beforeReset => rfl
  | reset => rfl
  | waiting => rfl
  | beat b =>
    cases b with
    | cmd cw => exact acceptCommand_head rs c p q rest cw
    | rsp rw => rfl
    | src v => rfl
    | out v last => rfl

/-- A CMD beat needs an offer and a block in IDLE (R24, R27). -/
theorem cmdBeat_of_no_offer {c : Context} {p : Pins} (h : ¬(p.cmdValid = true ∧ c.phase = .idle)) :
    cmdBeat c p = none := by
  refine if_neg fun hb => h ?_
  simpa [Context.outputs] using hb

/-- The word `b` on the ports is part of a CMD beat alone (R25). -/
theorem beatAt_cmdB_of_no_offer {c : Context} {p : Pins} (h : ¬(p.cmdValid = true ∧ c.phase = .idle)) (b : Word) :
    beatAt c { p with cmdB := b } = beatAt c p := by
  have hb : cmdBeat c { p with cmdB := b } = none := cmdBeat_of_no_offer h
  simp only [beatAt, hb, cmdBeat_of_no_offer h]
  rfl

/-- An edge is decided by `rst`, by whether a RESET has happened and, where both let it, by the beat (R24, R213). -/
theorem edge_congr {s t : State} (hseen : s.resetSeen = t.resetSeen) (hrst : s.pins.rst = t.pins.rst)
    (hbeat : s.pins.rst = false → s.resetSeen = true → beatAt s.ctx s.pins = beatAt t.ctx t.pins) :
    s.edge = t.edge := by
  rcases edge_cases s with ⟨he, hr⟩ | ⟨-, hr, hs⟩ | ⟨hr, hs, -⟩
  · rw [he, edge_of_rst t (hrst ▸ hr)]
  · simp [State.edge, ← hrst, hr, ← hseen, hs]
  · rw [edge_of_live s hs hr, edge_of_live t (hseen ▸ hs) (hrst ▸ hr), hbeat hr hs]

/-- Changing `b` changes nothing of an edge that is no CMD beat: which edge it is, and so what it does. -/
theorem step_cmdB_of_no_beat {s : State} {p : Pins}
    (h : p.rst = false → s.resetSeen = true → ¬(p.cmdValid = true ∧ s.ctx.phase = .idle)) (b : Word)
    (rest : List Pins) :
    step { s with inputs := { p with cmdB := b } :: rest } = step { s with inputs := p :: rest } :=
  step_eq_of_edge_eq (edge_congr rfl rfl fun hr hs => beatAt_cmdB_of_no_offer (h hr hs) b)

/-- Changing `b` changes nothing of a CMD beat with a code 0 to 2 (R86). -/
theorem step_cmdB_of_beat {s : State} {p : Pins} (hs : s.resetSeen = true) (hr : p.rst = false)
    (hp : s.ctx.phase = .idle) (hv : p.cmdValid = true) (hop : p.cmdOp.toNat ≤ 2) (b : Word) (rest : List Pins) :
    step { s with inputs := { p with cmdB := b } :: rest } = step { s with inputs := p :: rest } := by
  rw [step_of_offer (s := { s with inputs := { p with cmdB := b } :: rest }) hs hr hp hv,
    step_of_offer (s := { s with inputs := p :: rest }) hs hr hp hv]
  simp only [pins_cons, State.accepted_of_no_data_phase hop, decision_ignores_b hop p.cmdA b p.cmdB]
  rw [State.conclude_head s.resetSeen s.ctx _ p]

/-- Settles O24: an edge is a CMD beat or is not, and neither way does a code 0 to 2 let `b` through. -/
theorem ignoredOperandHasNoEffect : Obligations.IgnoredOperandHasNoEffect := by
  refine ⟨fun s p rest b hop => ?_, fun cw hle => ?_⟩
  · by_cases hbeat : p.rst = false ∧ s.resetSeen = true ∧ p.cmdValid = true ∧ s.ctx.phase = .idle
    · obtain ⟨hr, hs, hv, hp⟩ := hbeat
      exact step_cmdB_of_beat hs hr hp hv hop b rest
    · exact step_cmdB_of_no_beat (fun hr hs hoffer => hbeat ⟨hr, hs, hoffer⟩) b rest
  · obtain ⟨i, hok, -⟩ := exists_decode_eq_ok hle
    exact ⟨i, hok⟩

/-! ### The worked encodings -/

/-- Settles O14: each row's word is the encoding of its operation, and its answer is computed. -/
theorem workedEncodings : Obligations.WorkedEncodings :=
  ⟨⟨decode_eq_ok_iff.mpr (by decide), by decide⟩,
    ⟨decode_eq_ok_iff.mpr (by decide), by decide⟩,
    ⟨decode_eq_ok_iff.mpr (by decide), by decide⟩,
    ⟨decode_eq_ok_iff.mpr (by decide), by decide⟩,
    ⟨decode_eq_ok_iff.mpr (by decide), by decide⟩,
    ⟨decode_eq_ok_iff.mpr (by decide), by decide⟩,
    ⟨decode_eq_ok_iff.mpr (by decide), by decide⟩,
    ⟨decode_eq_ok_iff.mpr (by decide), by decide⟩,
    ⟨decode_reserved _ (by decide), by decide⟩⟩

end Sys2Proof.Machine
end

/-! SUPPORT and PROOF. The width of a word against its unsigned reading (spec/40_bitwidth.md R111, R113), the operation
BITWIDTH (R110, R114), and the statements these settle. -/

section
namespace Sys2Proof.Machine

/-! ### `bitWidth` and the powers of two -/

/-- `n` bits hold the word exactly when its width is at most `n`: the one law of `bitWidth` against `u32`, of which
the bounds, the logarithm and the monotonicity are readings (R113). -/
theorem bitWidth_le_iff {w : Word} {n : Nat} : bitWidth w ≤ n ↔ u32 w < 2 ^ n := by
  constructor
  · intro hle
    refine Nat.lt_pow_two_of_testBit _ fun i hi => ?_
    rw [u32, BitVec.testBit_toNat]
    rcases Nat.lt_or_ge i 32 with hlt | hge
    · obtain ⟨-, hzero⟩ | ⟨k, -, hwidth, -, habove⟩ := bitWidth_cases w
      · exact hzero i hlt
      · exact habove i (by omega) hlt
    · exact BitVec.getLsbD_of_ge w i hge
  · intro hlt
    obtain ⟨hwidth, -⟩ | ⟨k, -, hwidth, hbit, -⟩ := bitWidth_cases w
    · omega
    · have hpow : 2 ^ k < 2 ^ n := (Nat.ge_two_pow_of_testBit hbit).trans_lt hlt
      have hkn : k < n := (Nat.pow_lt_pow_iff_right (by decide)).mp hpow
      omega

theorem lt_bitWidth_iff {w : Word} {n : Nat} : n < bitWidth w ↔ 2 ^ n ≤ u32 w := by
  rw [← Nat.not_le, bitWidth_le_iff, Nat.not_lt]

theorem u32_lt_two_pow_bitWidth (w : Word) : u32 w < 2 ^ bitWidth w := bitWidth_le_iff.mp le_rfl

theorem bitWidth_le_32 (w : Word) : bitWidth w ≤ 32 := bitWidth_le_iff.mpr w.isLt

theorem u32_eq_zero_iff {w : Word} : u32 w = 0 ↔ w = 0 := BitVec.toNat_inj (y := 0)

theorem bitWidth_eq_zero_iff {w : Word} : bitWidth w = 0 ↔ w = 0 := by
  rw [← Nat.le_zero, bitWidth_le_iff, ← u32_eq_zero_iff, pow_zero, Nat.lt_one_iff]

/-- One bit fewer than the width does not hold the word (R113). -/
theorem two_pow_pred_bitWidth_le {w : Word} (h : 1 ≤ u32 w) : 2 ^ (bitWidth w - 1) ≤ u32 w := by
  have hpos : 0 < bitWidth w := lt_bitWidth_iff.mpr (by simpa using h)
  exact lt_bitWidth_iff.mp (by omega)

theorem bitWidth_eq_log2_succ {w : Word} (h : w ≠ 0) : bitWidth w = Nat.log2 (u32 w) + 1 := by
  refine eq_of_forall_ge_iff fun n => ?_
  rw [bitWidth_le_iff, Nat.succ_le_iff, Nat.log2_lt (mt u32_eq_zero_iff.mp h)]

theorem bitWidth_mono {v w : Word} (h : u32 v ≤ u32 w) : bitWidth v ≤ bitWidth w :=
  bitWidth_le_iff.mpr (h.trans_lt (u32_lt_two_pow_bitWidth w))

theorem bitWidth_of_bit_31 {w : Word} (h : w.getLsbD 31 = true) : bitWidth w = 32 :=
  bitWidth_of_highest_bit (by decide) h fun i hgt hlt => by omega

/-! ### The width of a mask and of a power of two -/

theorem bitWidth_fullMask {k : Nat} (h : k ≤ 32) : bitWidth (fullMask k) = k := by
  refine eq_of_forall_ge_iff fun n => ?_
  have hpos : 0 < 2 ^ k := Nat.two_pow_pos k
  rw [bitWidth_le_iff, u32_fullMask k h, ← Nat.pow_le_pow_iff_right (a := 2) (by decide)]
  omega

theorem u32_le_u32_fullMask_bitWidth (w : Word) : u32 w ≤ u32 (fullMask (bitWidth w)) := by
  rw [u32_fullMask _ (bitWidth_le_32 w)]
  exact Nat.le_sub_one_of_lt (u32_lt_two_pow_bitWidth w)

theorem bitWidth_two_pow {k : Nat} (h : k ≤ 31) : bitWidth (BitVec.ofNat 32 (2 ^ k)) = k + 1 := by
  have hval : u32 (BitVec.ofNat 32 (2 ^ k)) = 2 ^ k :=
    Nat.mod_eq_of_lt (Nat.pow_lt_pow_right (by decide) (by omega))
  refine eq_of_forall_ge_iff fun n => ?_
  rw [bitWidth_le_iff, hval, Nat.pow_lt_pow_iff_right (by decide), Nat.succ_le_iff]

/-- Settles O2: the highest 1 bit fixes the width, and with it the logarithm and the width of a negative word. -/
theorem bitWidthIsHighestSetBitPlusOne : Obligations.BitWidthIsHighestSetBitPlusOne :=
  ⟨bitWidth_zero, fun _ _ => bitWidth_of_highest_bit, fun _ => bitWidth_eq_log2_succ, fun _ => bitWidth_of_bit_31⟩

/-- Settles O3: `bitWidth_le_iff` gives every law but that of bit 31, which is the highest bit there is. -/
theorem bitWidthBoundsItsValue : Obligations.BitWidthBoundsItsValue :=
  ⟨fun w hpos => ⟨two_pow_pred_bitWidth_le hpos, u32_lt_two_pow_bitWidth w⟩,
    fun _ hzero => bitWidth_eq_zero_iff.mpr (u32_eq_zero_iff.mp hzero), fun _ => bitWidth_of_bit_31,
    u32_le_u32_fullMask_bitWidth, fun _ => bitWidth_fullMask, fun _ _ => bitWidth_mono⟩

/-! ### The operation BITWIDTH -/

/-- BITWIDTH reads `a` alone and only ever responds (R86, R110). -/
theorem exec_bitwidth (a b : Word) (s : State) :
    exec (.bitwidth a b) s = .next (s.respond (BitVec.ofNat 32 (bitWidth a))) := rfl

/-- What is live after `respond(v)` is the success word, with no data phase to come (R28, R85). -/
@[simp] theorem State.respond_view (s : State) (v : Word) :
    (s.respond v).ctx.view = .resp (responseWord false 0#3 v) none := rfl

/-- A negative word has bit 31 set (R9). -/
theorem getLsbD_31_of_s32_neg {a : Word} (h : s32 a < 0) : a.getLsbD 31 = true := by
  unfold s32 at h
  split at h
  next hbit => exact hbit
  next => omega

theorem bitWidth_of_s32_neg {a : Word} (h : s32 a < 0) : bitWidth a = 32 :=
  bitWidth_of_bit_31 (getLsbD_31_of_s32_neg h)

/-- Settles O16: BITWIDTH responds with the width, and the listed widths are those of masks and powers of two. -/
theorem bitwidthAnswersBitWidth : Obligations.BitwidthAnswersBitWidth :=
  ⟨fun a b s _ => ⟨bitWidth_le_32 a, opField_commandWord _ _ _, _, exec_bitwidth a b s, s.respond_view _,
      s.respond_resetSeen _, s.respond_inputs _⟩,
    fun k hk => ⟨fullMask k, bitWidth_fullMask hk⟩, fun _ => bitWidth_eq_zero_iff,
    fun k hk => ⟨bitWidth_two_pow hk, bitWidth_fullMask (by omega)⟩, bitWidth_of_bit_31 (by decide), by decide,
    by decide⟩

/-- Settles O17: bit 31 of a negative word is the highest there is, and `respond` leaves a success word. -/
theorem negativeWordsHaveFullWidth : Obligations.NegativeWordsHaveFullWidth := by
  refine ⟨fun _ => bitWidth_of_s32_neg, fun a b s _ hneg => ⟨_, exec_bitwidth a b s, ?_⟩,
    fun a b s _ => ⟨_, exec_bitwidth a b s, s.respond_phase _, rspErr_successWord _⟩⟩
  rw [State.respond_view, bitWidth_of_s32_neg hneg]

end Sys2Proof.Machine
end

/-! SUPPORT and PROOF. The masks bit by bit (spec/41_fullmask.md R121, R123, R124), the signed reading against the
unsigned one (R9), the operation FULLMASK (R120), and the statements these settle. -/

section
namespace Sys2Proof.Machine

/-! ### The bits of a mask -/

/-- Bit `i` of a mask, for an index of the word (R121). -/
theorem getLsbD_fullMask_of_lt (k : Nat) {i : Nat} (hi : i < 32) : (fullMask k).getLsbD i = decide (i < k) := by
  rw [getLsbD_fullMask, decide_eq_true hi, Bool.true_and]

/-- Of the `n` indices below `n`, those below `k` number `min n k`. -/
theorem countP_range_lt (n k : Nat) : (List.range n).countP (fun i => decide (i < k)) = min n k := by
  induction n with
  | zero => simp
  | succ n ih =>
    simp only [List.range_succ, List.countP_append, List.countP_singleton, ih, decide_eq_true_eq]
    split <;> omega

/-- The population count of a mask is its width (R123). -/
theorem countP_getLsbD_fullMask {k : Nat} (h : k ≤ 32) :
    (List.range 32).countP (fun i => (fullMask k).getLsbD i) = k :=
  calc (List.range 32).countP (fun i => (fullMask k).getLsbD i)
      = (List.range 32).countP (fun i => decide (i < k)) :=
        List.countP_congr fun i hi => by rw [getLsbD_fullMask_of_lt k (List.mem_range.mp hi)]
    _ = min 32 k := countP_range_lt 32 k
    _ = k := Nat.min_eq_right h

/-- The AND of two masks is the mask of the smaller width: a bit is below both widths exactly when it is below the
smaller one (R124). -/
theorem fullMask_and_fullMask (j k : Nat) : fullMask j &&& fullMask k = fullMask (min j k) := by
  refine BitVec.eq_of_getLsbD_eq fun i hi => ?_
  simp only [BitVec.getLsbD_and, getLsbD_fullMask_of_lt _ hi, Nat.lt_min, Bool.decide_and]

/-- A wider mask is a larger unsigned value (R124). -/
theorem u32_fullMask_lt {j k : Nat} (hjk : j < k) (hk : k ≤ 32) : u32 (fullMask j) < u32 (fullMask k) := by
  have hpos : 0 < 2 ^ j := Nat.two_pow_pos j
  have hpow : 2 ^ j < 2 ^ k := Nat.pow_lt_pow_right (by decide) hjk
  rw [u32_fullMask j (by omega), u32_fullMask k hk]
  omega

/-- The widest mask is the all-ones word (R121). -/
theorem fullMask_32 : fullMask 32 = 0xFFFFFFFF#32 := by decide

/-- The all-ones word reads as -1 (R9). -/
theorem s32_fullMask_32 : s32 (fullMask 32) = -1 := by decide

/-- Settles O5: a mask's value follows its width, and AND acts on each bit; the signed reading falls where the mask
reaches bit 31. -/
theorem fullMaskIsStrictlyIncreasing : Obligations.FullMaskIsStrictlyIncreasing :=
  ⟨fun k hk => u32_fullMask_lt k.lt_succ_self (by omega), by decide, s32_fullMask_32,
    fun j k _ _ => fullMask_and_fullMask j k⟩

/-- Settles O4: the value, the bits and their count are each a law of `fullMask`. -/
theorem fullMaskHasExactlyTheLowBits : Obligations.FullMaskHasExactlyTheLowBits :=
  ⟨fun k hk => ⟨u32_fullMask k hk, fun _ => getLsbD_fullMask_of_lt k, countP_getLsbD_fullMask hk⟩,
    fullMask_32, s32_fullMask_32⟩

/-! ### The signed reading -/

/-- A word with bit 31 set is at least `2^31` in the unsigned reading (R9). -/
theorem u32_ge_of_getLsbD {a : Word} (h : a.getLsbD 31 = true) : 2 ^ 31 ≤ u32 a :=
  Nat.ge_two_pow_of_testBit h

/-- The two readings of a word, on either side of `2^31` (R9). -/
theorem s32_cases (a : Word) :
    (u32 a < 2 ^ 31 ∧ s32 a = u32 a) ∨ (2 ^ 31 ≤ u32 a ∧ s32 a = (u32 a : Int) - 2 ^ 32) := by
  unfold s32
  split
  next hbit => exact .inr ⟨u32_ge_of_getLsbD hbit, rfl⟩
  next hbit => exact .inl ⟨u32_lt_of_getLsbD a (Bool.eq_false_iff.mpr hbit), rfl⟩

/-- The one unsigned comparison of FULLMASK rejects the words that both signed ones do (R120). -/
theorem u32_gt_32_iff (a : Word) : u32 a > 32 ↔ s32 a < 0 ∨ s32 a > 32 := by
  have hlt : u32 a < 2 ^ 32 := a.isLt
  obtain ⟨hlow, hs⟩ | ⟨hhigh, hs⟩ := s32_cases a <;> omega

/-! ### The operation FULLMASK -/

theorem decideFullmask_of_le {a : Word} (h : u32 a ≤ 32) : decideFullmask a = .respond (fullMask (u32 a)) :=
  if_neg (by omega)

theorem decideFullmask_of_gt {a : Word} (h : u32 a > 32) : decideFullmask a = .raise .invalidWidth := if_pos h

/-- What is live after a decision phase without a data phase to come is its response word (R28). -/
@[simp] theorem State.conclude_view (s : State) (d : Decision) :
    (s.conclude d).ctx.view = .resp (decisionWord d) none := by
  cases d with
  | respond v => exact s.respond_view v
  | raise e => rfl

/-- FULLMASK reads `a` alone and ends in its decision, with no data phase (R86, R120). -/
theorem exec_fullmask_of_decision {a : Word} {d : Decision} (hd : decideFullmask a = d) (b : Word) (s : State) :
    ∃ t, exec (.fullmask a b) s = .next t ∧ t.ctx.view = .resp (decisionWord d) none ∧
      t.resetSeen = s.resetSeen ∧ t.inputs = s.inputs.tail := by
  obtain ⟨-, -, hseen, hinputs⟩ := s.answers_conclude d
  exact ⟨s.conclude d, hd ▸ rfl, s.conclude_view d, hseen, hinputs⟩

/-- Settles O18: the decision phase splits at the unsigned width 32. -/
theorem fullmaskAnswersMaskOrInvalidWidth : Obligations.FullmaskAnswersMaskOrInvalidWidth :=
  ⟨fun _ b s _ hle => exec_fullmask_of_decision (decideFullmask_of_le hle) b s,
    fun a b s _ hout => exec_fullmask_of_decision (decideFullmask_of_gt ((u32_gt_32_iff a).mpr hout)) b s,
    u32_gt_32_iff, fun _ _ => opField_commandWord _ _ _, by decide, fullMask_32, by decide, by decide, by decide⟩

end Sys2Proof.Machine
end

/-! SUPPORT and PROOF. `ByteCount` as the least number of octets that hold a count (spec/42_bytecount.md R131, R133),
its 32-bit adder (R132), the operation BYTECOUNT (R130), and the statements these settle. -/

section
namespace Sys2Proof.Machine

/-! ### `byteCount` and the multiples of 8 -/

/-- `q` octets hold `N` bits exactly when the byte count is at most `q`: the one law of `byteCount`, of which the
ceiling, the bound on legal counts and the monotonicity are readings (R131). -/
theorem byteCount_le_iff {N q : Nat} : byteCount N ≤ q ↔ N ≤ 8 * q := by
  have hbounds := byteCount_bounds N
  omega

/-- The first form of R131: the ceiling and the byte count are at most the same numbers. -/
theorem byteCount_eq_ceil (N : Nat) : byteCount N = ⌈(N : ℚ) / 8⌉₊ := by
  refine eq_of_forall_ge_iff fun q => ?_
  rw [byteCount_le_iff, Nat.ceil_le, div_le_iff₀ (by norm_num), mul_comm 8 q]
  norm_cast

/-- The third form of R131, with its shift. -/
theorem byteCount_eq_shiftRight (N : Nat) : byteCount N = (N >>> 3) + (if N % 8 ≠ 0 then 1 else 0) := by
  rw [Nat.shiftRight_eq_div_pow, ite_not]
  rfl

theorem byteCount_mono {M N : Nat} (h : M ≤ N) : byteCount M ≤ byteCount N :=
  byteCount_le_iff.mpr (h.trans (byteCount_bounds N).2)

theorem byteCount_add_eight (N : Nat) : byteCount (N + 8) = byteCount N + 1 := by
  rw [byteCount_eq, byteCount_eq]
  omega

theorem byteCount_eight_mul (q : Nat) : byteCount (8 * q) = q :=
  eq_of_forall_ge_iff fun n => by rw [byteCount_le_iff, Nat.mul_le_mul_left_iff (by decide)]

/-- The eight counts that need octet `q` and no further one. -/
theorem byteCount_eq_succ_iff {N q : Nat} : byteCount N = q + 1 ↔ 8 * q < N ∧ N ≤ 8 * (q + 1) := by
  rw [← byteCount_le_iff, ← Nat.not_le, ← byteCount_le_iff]
  omega

/-- The counts of the last, partial octet below `2^31` (R132). -/
theorem byteCount_top {N : Nat} (hlow : 0x7FFFFFF9 ≤ N) (hhigh : N ≤ 0x7FFFFFFF) : byteCount N = 0x10000000 :=
  byteCount_eq_succ_iff.mpr ⟨by omega, by omega⟩

theorem byteCount_le_nbytesMax {N : Nat} (h : N ≤ Config.nMax) : byteCount N ≤ Config.nbytesMax := by
  rw [Config.nMax] at h
  rw [byteCount_le_iff, Config.nbytesMax]
  omega

/-- Settles O7: each form of R131 is a law of `byteCount`, and the bound is that of `2^28` octets. -/
theorem byteCountIsCeilingOfEighth : Obligations.ByteCountIsCeilingOfEighth :=
  ⟨fun N => ⟨byteCount_eq_ceil N, byteCount_eq N, byteCount_eq_shiftRight N⟩, fun _ => byteCount_le_nbytesMax⟩

/-- Settles O9: the laws of R133 one by one; its concrete values are computed. -/
theorem byteCountLaws : Obligations.ByteCountLaws :=
  ⟨byteCount_eq_ceil, by decide, fun N _ => byteCount_bounds N, fun _ _ => byteCount_mono, byteCount_add_eight⟩

/-! ### The 32-bit adder -/

/-- Bit 31 of a word is what tells the two halves of the unsigned range apart (R9). -/
theorem getLsbD_31_iff {a : Word} : a.getLsbD 31 = true ↔ 2 ^ 31 ≤ u32 a := by
  refine ⟨u32_ge_of_getLsbD, fun hge => ?_⟩
  by_contra hbit
  exact absurd (u32_lt_of_getLsbD a (Bool.eq_false_iff.mpr hbit)) (Nat.not_lt.mpr hge)

/-- 32 unsigned bits hold the sum of a legal count and 7 (R132). -/
theorem u32_add_seven {a : Word} (h : a.getLsbD 31 = false) : u32 (a + 7#32) = u32 a + 7 := by
  have hlt := u32_lt_of_getLsbD a h
  exact Nat.mod_eq_of_lt (show u32 a + 7 < 2 ^ 32 by omega)

/-- The second form of R131 in 32 unsigned bits is the byte count of every legal count (R132). -/
theorem toNat_add_seven_shiftRight {a : Word} (h : a.getLsbD 31 = false) :
    ((a + 7#32) >>> 3).toNat = byteCount (u32 a) :=
  calc ((a + 7#32) >>> 3).toNat
      = u32 (a + 7#32) / 8 := by rw [BitVec.toNat_ushiftRight, Nat.shiftRight_eq_div_pow]; rfl
    _ = (u32 a + 7) / 8 := by rw [u32_add_seven h]
    _ = byteCount (u32 a) := (byteCount_eq _).symm

/-- A signed adder would overflow on exactly the counts from `2^31 - 7` (R132). -/
theorem getLsbD_31_add_seven_iff {a : Word} (h : a.getLsbD 31 = false) :
    (a + 7#32).getLsbD 31 = true ↔ 2 ^ 31 - 7 ≤ u32 a := by
  rw [getLsbD_31_iff, u32_add_seven h]
  omega

/-- Settles O8: the sum in 32 unsigned bits is the exact sum, which gives its bound, its shift and its bit 31. -/
theorem byteCountDoesNotWrap : Obligations.ByteCountDoesNotWrap := by
  refine ⟨fun a h => ⟨?_, toNat_add_seven_shiftRight h, getLsbD_31_add_seven_iff h⟩, fun _ => byteCount_top,
    byteCount_eight_mul 0x0FFFFFFF⟩
  have hlt := u32_lt_of_getLsbD a h
  omega

/-! ### The operation BYTECOUNT -/

/-- The sign of the signed reading is bit 31 (R9). -/
theorem getLsbD_31_iff_s32_neg (a : Word) : a.getLsbD 31 = true ↔ s32 a < 0 := by
  refine ⟨fun hbit => ?_, getLsbD_31_of_s32_neg⟩
  have hlt : u32 a < 2 ^ 32 := a.isLt
  have hge := u32_ge_of_getLsbD hbit
  obtain ⟨hlow, -⟩ | ⟨-, hs⟩ := s32_cases a <;> omega

theorem decideBytecount_of_legal {a : Word} (h : a.getLsbD 31 = false) :
    decideBytecount a = .respond (BitVec.ofNat 32 (byteCount (u32 a))) :=
  if_neg (Bool.eq_false_iff.mp h)

theorem decideBytecount_of_negative {a : Word} (h : a.getLsbD 31 = true) :
    decideBytecount a = .raise .invalidBitCount := if_pos h

/-- BYTECOUNT reads `a` alone and ends in its decision, with no data phase (R86, R130). -/
theorem exec_bytecount_of_decision {a : Word} {d : Decision} (hd : decideBytecount a = d) (b : Word) (s : State) :
    exec (.bytecount a b) s = .next (s.conclude d) := hd ▸ rfl

/-- What an instruction that ends in a decision without a data phase leaves live, and what it keeps (R28). -/
theorem exists_next_of_exec_conclude {i : Instr} {s : State} {d : Decision} (h : exec i s = .next (s.conclude d)) :
    ∃ t, exec i s = .next t ∧ t.ctx.view = .resp (decisionWord d) none ∧
      t.resetSeen = s.resetSeen ∧ t.inputs = s.inputs.tail := by
  obtain ⟨-, -, hseen, hinputs⟩ := s.answers_conclude d
  exact ⟨s.conclude d, h, s.conclude_view d, hseen, hinputs⟩

/-- Settles O19: the decision phase splits at bit 31, and the listed counts are read off the laws of `byteCount`. -/
theorem bytecountAnswersCountOrInvalidBitCount : Obligations.BytecountAnswersCountOrInvalidBitCount :=
  ⟨fun a b s _ hlegal => ⟨toNat_byteCount_word a hlegal,
      exists_next_of_exec_conclude (exec_bytecount_of_decision (decideBytecount_of_legal hlegal) b s)⟩,
    fun _ b s _ hneg =>
      exists_next_of_exec_conclude (exec_bytecount_of_decision (decideBytecount_of_negative hneg) b s),
    getLsbD_31_iff_s32_neg, fun _ _ => opField_commandWord _ _ _, byteCount_eight_mul,
    fun _ _ hlow hhigh => byteCount_eq_succ_iff.mpr ⟨by omega, by omega⟩,
    byteCount_top (by decide) (by decide), by decide, by decide⟩

end Sys2Proof.Machine
end

/-! SUPPORT and PROOF. What a data phase delivers (spec/43_encode.md R143 to R154, spec/44_decode.md R165, R166): the
octets of the output bit by bit, the beats that carry them, and the statements these settle. -/

section
namespace Sys2Proof.Machine

/-! ### The octets of the output -/

@[simp] theorem length_outOctets (N L : Nat) (src : List Octet) : (outOctets N L src).length = byteCount N := by
  simp [outOctets]

theorem getElem?_outOctets {N j : Nat} (hj : j < byteCount N) (L : Nat) (src : List Octet) :
    (outOctets N L src)[j]? = some (outOctet N L src j) := by
  simp [outOctets, hj]

theorem getD_outOctets {N j : Nat} (hj : j < byteCount N) (L : Nat) (src : List Octet) (d : Octet) :
    (outOctets N L src).getD j d = outOctet N L src j := by
  rw [List.getD_eq_getElem?_getD, getElem?_outOctets hj, Option.getD_some]

/-- Outputs of one count are equal as soon as each octet is. -/
theorem outOctets_congr {N L L' : Nat} {src src' : List Octet}
    (h : ∀ j, j < byteCount N → outOctet N L src j = outOctet N L' src' j) :
    outOctets N L src = outOctets N L' src' :=
  List.map_congr_left fun j hj => h j (List.mem_range.mp hj)

/-- An octet past the extent is padding (R145). -/
theorem outOctet_of_le {L j : Nat} (h : L ≤ j) (N : Nat) (src : List Octet) : outOctet N L src j = 0x00#8 := by
  rw [outOctet, if_neg (Nat.not_lt.mpr h), BitVec.zero_and]

/-- A whole octet is copied or padded, never masked (R150). -/
theorem outOctet_of_whole {N j : Nat} (h : keepMask j N = 0xFF#8) (L : Nat) (src : List Octet) :
    outOctet N L src j = if j < L then srcOctet src j else 0x00#8 := by
  rw [outOctet, h]
  exact BitVec.and_allOnes

/-- Cutting a source after `n` octets keeps those below `n` (R144). -/
theorem srcOctet_take {n j : Nat} (h : j < n) (src : List Octet) : srcOctet (src.take n) j = srcOctet src j := by
  simp [srcOctet, h]

theorem srcOctet_eq_getElem {src : List Octet} {j : Nat} (h : j < src.length) : srcOctet src j = src[j] :=
  List.getD_eq_getElem src 0x00#8 h

/-! ### The bits of the output -/

/-- Where the octet exists, the source's bit is that of the list of octets (R56, R57). -/
theorem srcBit_eq_outBit {L i : Nat} (h : i / 8 < L) (src : List Octet) : srcBit L src i = outBit src i := if_pos h

/-- The source's bits, octet by octet; a missing octet has 0 bits (R56). -/
theorem srcBit_of_octet (L : Nat) (src : List Octet) (j : Nat) {p : Nat} (hp : p < 8) :
    srcBit L src (8 * j + p) = (if j < L then srcOctet src j else 0x00#8).getLsbD p := by
  have hdiv : (8 * j + p) / 8 = j := by omega
  have hmod : (8 * j + p) % 8 = p := by omega
  rw [srcBit, hdiv, hmod]
  split
  · rfl
  · exact BitVec.getLsbD_zero.symm

/-- The one fact about the bits of the output: those below `N` are the source's and the others are 0 (R146 to R148). -/
theorem getLsbD_outOctet {N j p : Nat} (hj : j < byteCount N) (hp : p < 8) (L : Nat) (src : List Octet) :
    (outOctet N L src j).getLsbD p = if 8 * j + p < N then srcBit L src (8 * j + p) else false := by
  rw [outOctet, BitVec.getLsbD_and, getLsbD_keepMask j N p hj hp, ← srcBit_of_octet L src j hp]
  split
  next hlt => rw [decide_eq_true hlt, Bool.and_true]
  next hge => rw [decide_eq_false hge, Bool.and_false]

/-- The same fact by the index of the bit in the sequence. -/
theorem outBit_outOctets {N i : Nat} (hi : i < 8 * byteCount N) (L : Nat) (src : List Octet) :
    outBit (outOctets N L src) i = if i < N then srcBit L src i else false := by
  have hj : i / 8 < byteCount N := by omega
  rw [outBit, getD_outOctets hj, getLsbD_outOctet hj (Nat.mod_lt i (by decide)), Nat.div_add_mod]

/-- Sources that agree below `N` give the same output (R148, R154). -/
theorem outOctets_eq_of_srcBit_eq {N L L' : Nat} {src src' : List Octet}
    (h : ∀ i, i < N → srcBit L src i = srcBit L' src' i) : outOctets N L src = outOctets N L' src' := by
  refine outOctets_congr fun j hj => BitVec.eq_of_getLsbD_eq fun p hp => ?_
  rw [getLsbD_outOctet hj hp, getLsbD_outOctet hj hp]
  split
  next hlt => exact h _ hlt
  next => rfl

/-- The output read as a source has the source's bits below `N` (R146). -/
theorem srcBit_outOctets {N i : Nat} (hi : i < N) (L : Nat) (src : List Octet) :
    srcBit (byteCount N) (outOctets N L src) i = srcBit L src i := by
  have hbound := (byteCount_bounds N).2
  rw [srcBit_eq_outBit (by omega), outBit_outOctets (by omega), if_pos hi]

/-- Settles O51: each bit of the output is the source's or 0 as its index is below `N` or not. -/
theorem outputBitsAreSourceBitsThenZero : Obligations.OutputBitsAreSourceBitsThenZero := by
  refine fun N L src => ⟨fun i hi => ?_, fun i hge hi => ?_⟩
  · rw [outBit_outOctets (hi.trans_le (byteCount_bounds N).2), if_pos hi]
  · rw [outBit_outOctets hi, if_neg (Nat.not_lt.mpr hge)]

/-- Settles O52: the bits of one octet, the agreement of sources below `N`, and the extent as the test `j < L`. -/
theorem outputIgnoresBitsBeyondN : Obligations.OutputIgnoresBitsBeyondN := by
  refine ⟨fun N L src j p hj hp => ?_, fun _ _ _ _ _ => outOctets_eq_of_srcBit_eq, fun N L L' src h => ?_⟩
  · rw [getD_outOctets hj, getLsbD_outOctet hj hp]
  · refine outOctets_congr fun j hj => ?_
    simp only [outOctet, h j hj]

/-- Settles O57: an output read as a source agrees below `N` with the source it came from. -/
theorem encodingIsIdempotent : Obligations.EncodingIsIdempotent :=
  ⟨fun _ L src => outOctets_eq_of_srcBit_eq fun _ hi => srcBit_outOctets hi L src,
    fun _ _ _ _ _ => outOctets_eq_of_srcBit_eq⟩

/-! ### Whole octets -/

/-- A buffer of `ByteCount(N)` whole octets is its own output (R166). -/
theorem outOctets_eq_self {N : Nat} {buf : List Octet} (hlen : buf.length = byteCount N)
    (hwhole : ∀ j, j < byteCount N → keepMask j N = 0xFF#8) : outOctets N (byteCount N) buf = buf := by
  refine List.ext_getElem? fun j => ?_
  by_cases hj : j < byteCount N
  · have hbuf : j < buf.length := hlen ▸ hj
    rw [getElem?_outOctets hj, outOctet_of_whole (hwhole j hj), if_pos hj, srcOctet_eq_getElem hbuf,
      List.getElem?_eq_getElem hbuf]
  · rw [List.getElem?_eq_none (by simpa using hj), List.getElem?_eq_none (by omega)]

/-- Settles O55: no octet of a multiple of 8 bits is partial, so none is masked. -/
theorem wholeOctetsPassUnmasked : Obligations.WholeOctetsPassUnmasked := by
  intro N hmod _
  have hwhole : ∀ j, keepMask j N = 0xFF#8 := fun j => keepMask_of_whole fun ⟨_, hpart⟩ => hpart hmod
  refine ⟨fun j _ => hwhole j, fun L src j hj => ?_, fun buf hlen => outOctets_eq_self hlen fun j _ => hwhole j⟩
  rw [getElem?_outOctets hj, outOctet_of_whole (hwhole j)]

/-! ### The octets that beats take and send -/

theorem takenOctets_append (bs cs : List Beat) : takenOctets (bs ++ cs) = takenOctets bs ++ takenOctets cs := by
  induction bs with
  | nil => rfl
  | cons b bs ih => cases b <;> simp [takenOctets, ih]

theorem sentOctets_append (bs cs : List Beat) : sentOctets (bs ++ cs) = sentOctets bs ++ sentOctets cs := by
  induction bs with
  | nil => rfl
  | cons b bs ih => cases b <;> simp [sentOctets, ih]

theorem takenOctets_flatMap (f : Nat → List Beat) (js : List Nat) :
    takenOctets (js.flatMap f) = js.flatMap fun j => takenOctets (f j) := by
  induction js with
  | nil => rfl
  | cons j js ih => rw [List.flatMap_cons, List.flatMap_cons, takenOctets_append, ih]

theorem sentOctets_flatMap (f : Nat → List Beat) (js : List Nat) :
    sentOctets (js.flatMap f) = js.flatMap fun j => sentOctets (f j) := by
  induction js with
  | nil => rfl
  | cons j js ih => rw [List.flatMap_cons, List.flatMap_cons, sentOctets_append, ih]

/-- Going through the indices below `n` and keeping those below `L` is going through the indices below both. -/
theorem flatMap_range_of_lt {α : Type} (L n : Nat) (f : Nat → α) :
    ((List.range n).flatMap fun j => if j < L then [f j] else []) = (List.range (min L n)).map f := by
  induction n with
  | zero => simp
  | succ n ih =>
    rw [List.range_succ, List.flatMap_append, ih, List.flatMap_singleton]
    split
    next hlt => rw [min_eq_right (Nat.succ_le_of_lt hlt), min_eq_right hlt.le, List.range_succ, List.map_append]; rfl
    next hge => rw [min_eq_left (by omega), min_eq_left (by omega), List.append_nil]

/-- A data phase takes the source's first octets, as many as the extent and the output both have (R144). -/
theorem takenOctets_dataBeats (L : Nat) (src out : List Octet) :
    takenOctets (dataBeats L src out) = (List.range (min L out.length)).map (srcOctet src) := by
  rw [dataBeats, takenOctets_flatMap, ← flatMap_range_of_lt]
  congr 1
  funext j
  split <;> rfl

/-- A data phase sends its output (R31). -/
theorem sentOctets_dataBeats (L : Nat) (src out : List Octet) : sentOctets (dataBeats L src out) = out := by
  have hsent : sentOctets (dataBeats L src out) = (List.range out.length).map fun j => out.getD j 0x00#8 := by
    rw [dataBeats, sentOctets_flatMap, List.map_eq_flatMap]
    congr 1
    funext j
    split <;> rfl
  rw [hsent]
  exact List.ext_getElem (by simp) fun j _ hj => by
    rw [List.getElem_map, List.getElem_range, List.getD_eq_getElem out _ hj]

/-- Settles O53: the output is cut and padded octet by octet, and the beats take what the output has room for. -/
theorem longSourceIsCutShortSourceIsPadded : Obligations.LongSourceIsCutShortSourceIsPadded := by
  refine fun N L src => ⟨outOctets_congr fun j hj => ?_, ?_, length_outOctets N L src, fun j hL hj => ?_, ?_⟩
  · rw [outOctet, outOctet, srcOctet_take hj]
  · rw [takenOctets_dataBeats, List.length_map, List.length_range, length_outOctets]
  · rw [getElem?_outOctets hj, outOctet_of_le hL]
  · refine List.eq_replicate_iff.mpr ⟨length_outOctets N 0 src, fun v hv => ?_⟩
    obtain ⟨j, -, rfl⟩ := List.mem_map.mp hv
    exact outOctet_of_le (Nat.zero_le j) N src

/-! ### The transactions of ENCODE and DECODE -/

/-- The decision phase of ENCODE on a legal count (R140). -/
theorem decideEncode_of_legal {a : Word} (h : a.getLsbD 31 = false) :
    decideEncode a = .respond (BitVec.ofNat 32 (byteCount (u32 a))) := if_neg (Bool.eq_false_iff.mp h)

/-- The decision phase of DECODE on a legal count and a buffer of its size (R160). -/
theorem decideDecode_of_match {a b : Word} (h : a.getLsbD 31 = false) (hb : u32 b = byteCount (u32 a)) :
    decideDecode a b = .respond (BitVec.ofNat 32 (byteCount (u32 a))) := by
  rw [decideDecode, if_neg (Bool.eq_false_iff.mp h), if_neg (not_not.mpr hb)]

/-- The decision phase of DECODE on a legal count and a buffer of another size (R161). -/
theorem decideDecode_of_mismatch {a b : Word} (h : a.getLsbD 31 = false) (hb : u32 b ≠ byteCount (u32 a)) :
    decideDecode a b = .raise .lengthMismatch := by
  rw [decideDecode, if_neg (Bool.eq_false_iff.mp h), if_pos hb]

/-- The beats of an instruction's command word (R36). -/
theorem transactionBeats_encode (i : Instr) (src : List Octet) :
    transactionBeats (encode i) src = .cmd (encode i) :: .rsp (transact i.opcode i.a i.b src).1 ::
      dataBeats (u32 i.b) src (transact i.opcode i.a i.b src).2 := by
  simp [transactionBeats, encode]

/-- ENCODE and DECODE answer a success with the output of the data phase (R36, R140, R160). -/
theorem transactionBeats_of_respond {i : Instr} (hop : i.opcode = 3#4 ∨ i.opcode = 4#4) {v : Word}
    (h : decision i.opcode i.a i.b = .respond v) (src : List Octet) :
    transactionBeats (encode i) src = .cmd (encode i) :: .rsp (successWord v) ::
      dataBeats (u32 i.b) src (outOctets (u32 i.a) (u32 i.b) src) := by
  rw [transactionBeats_encode, transact, h]
  simp only [if_pos hop]

/-- The count 0 has no output octet, whatever the extent (R149, R165). -/
theorem transactionBeats_of_zero_bits {i : Instr} (hop : i.opcode = 3#4 ∨ i.opcode = 4#4) (ha : i.a = 0)
    (h : decision i.opcode i.a i.b = .respond 0#32) (src : List Octet) :
    transactionBeats (encode i) src = [.cmd (encode i), .rsp (successWord 0#32)] := by
  rw [transactionBeats_of_respond hop h, ha]
  rfl

/-- A raised error has no data phase (R181). -/
theorem transactionBeats_of_raise {i : Instr} {e : ErrorCode} (h : decision i.opcode i.a i.b = .raise e)
    (src : List Octet) : transactionBeats (encode i) src = [.cmd (encode i), .rsp (errorWord e)] := by
  rw [transactionBeats_encode, transact, h]
  rfl

/-- Settles O54: the byte count of 0 is 0, so no size but 0 matches, and a success has no octet to move. -/
theorem zeroBitsHaveNoDataPhase : Obligations.ZeroBitsHaveNoDataPhase := by
  refine ⟨fun b src => ?_, fun src => ?_, fun b src hb => ?_⟩
  · have hdec : decision 3#4 0 b = .respond 0#32 := decideEncode_of_legal (by decide)
    exact transactionBeats_of_zero_bits (i := .encode 0 b) (.inl rfl) rfl hdec src
  · have hdec : decision 4#4 0 0 = .respond 0#32 := decideDecode_of_match (by decide) (by decide)
    exact transactionBeats_of_zero_bits (i := .decode 0 0) (.inr rfl) rfl hdec src
  · have hdec : decision 4#4 0 b = .raise .lengthMismatch :=
      decideDecode_of_mismatch (by decide) fun hsize => hb (u32_eq_zero_iff.mp hsize)
    exact transactionBeats_of_raise (i := .decode 0 b) hdec src

/-- ENCODE of a legal count sends the output and takes the source octets that it has room for (R143, R144). -/
theorem octets_of_encode {a : Word} (h : a.getLsbD 31 = false) (b : Word) (src : List Octet) :
    sentOctets (transactionBeats (encode (.encode a b)) src) = outOctets (u32 a) (u32 b) src ∧
    takenOctets (transactionBeats (encode (.encode a b)) src) =
      (List.range (min (u32 b) (byteCount (u32 a)))).map (srcOctet src) := by
  rw [transactionBeats_of_respond (i := .encode a b) (.inl rfl) (decideEncode_of_legal h), sentOctets, sentOctets,
    takenOctets, takenOctets, sentOctets_dataBeats, takenOctets_dataBeats, length_outOctets]
  exact ⟨rfl, rfl⟩

/-! ### Ten bits -/

/-- The output of ten bits: octet 0 passes and octet 1 keeps its two low bits (R151). -/
theorem outOctets_ten (x y : Octet) : outOctets 10 2 [x, y] = [x, y &&& 0x03#8] := by
  have hoctets : outOctets 10 2 [x, y] = [outOctet 10 2 [x, y] 0, outOctet 10 2 [x, y] 1] := rfl
  rw [hoctets, outOctet_of_whole (show keepMask 0 10 = 0xFF#8 by decide)]
  rfl

/-- Settles O56: the masks and the octets of ten bits in general, then the rows of R152 as values of these. -/
theorem tenBitExamples : Obligations.TenBitExamples := by
  refine ⟨by decide, by decide, by decide, outOctets_ten, outOctets_ten _ _, outOctets_ten _ _, ?_⟩
  have hsent := fun L src => (octets_of_encode (a := 10) (by decide) L src).1
  have htaken := fun L src => (octets_of_encode (a := 10) (by decide) L src).2
  simp only [hsent, htaken]
  decide

end Sys2Proof.Machine
end

/-! SUPPORT and PROOF. DECODE against ENCODE (spec/44_decode.md R163, R164, R168): what the two transactions are on a
legal count and a buffer of its size, when a buffer is its own output, and the statements these settle. -/

section
namespace Sys2Proof.Machine

/-! ### The transactions of ENCODE and DECODE that succeed -/

/-- ENCODE and DECODE answer a success with the octets of the data phase (R36, R140, R160). -/
theorem transact_of_respond {op : OpCode} (hop : op = 3#4 ∨ op = 4#4) {a b v : Word}
    (h : decision op a b = .respond v) (src : List Octet) :
    transact op a b src = (successWord v, outOctets (u32 a) (u32 b) src) := by
  rw [transact, h]
  simp only [if_pos hop]

/-- ENCODE takes every extent on a legal count (R140). -/
theorem transact_encode_of_legal {a : Word} (h : a.getLsbD 31 = false) (b : Word) (src : List Octet) :
    transact 3#4 a b src =
      (successWord (BitVec.ofNat 32 (byteCount (u32 a))), outOctets (u32 a) (u32 b) src) :=
  transact_of_respond (.inl rfl) (decideEncode_of_legal h) src

/-- A word that passes the length check is the byte count as a word (R160). -/
theorem ofNat_byteCount_of_match {N : Nat} {c : Word} (hc : u32 c = byteCount N) :
    BitVec.ofNat 32 (byteCount N) = c := by
  rw [← hc]
  exact BitVec.ofNat_toNat 32 c

/-- DECODE of a buffer of the right size answers that size, and packs the whole buffer (R160, R163). -/
theorem transact_decode_of_match {a c : Word} (h : a.getLsbD 31 = false) (hc : u32 c = byteCount (u32 a))
    (buf : List Octet) :
    transact 4#4 a c buf = (successWord c, outOctets (u32 a) (byteCount (u32 a)) buf) := by
  have hdec : decision 4#4 a c = .respond c :=
    (decideDecode_of_match h hc).trans (congrArg Decision.respond (ofNat_byteCount_of_match hc))
  rw [transact_of_respond (.inr rfl) hdec, hc]

/-- Settles O58: both operations answer the byte count with the output of one data phase, whose extent covers every
octet. -/
theorem decodeOctetsAreEncodes : Obligations.DecodeOctetsAreEncodes := by
  refine fun a b src h hb => ⟨?_, fun j hj => ?_⟩
  · rw [transact_decode_of_match h hb, transact_encode_of_legal h, ofNat_byteCount_of_match hb, hb]
  · rw [transact_decode_of_match h hb, getElem?_outOctets hj, outOctet, if_pos hj]

/-! ### The bits of a buffer of the right size -/

/-- Below `N` a buffer of `ByteCount(N)` octets, read as a source, has no missing octet (R56, R57). -/
theorem srcBit_byteCount {N i : Nat} (hi : i < N) (buf : List Octet) : srcBit (byteCount N) buf i = outBit buf i := by
  have hbound := (byteCount_bounds N).2
  exact srcBit_eq_outBit (by omega) buf

/-- Settles O59: DECODE's bits are those of the output of the whole buffer. -/
theorem decodeIgnoresDirtyTail : Obligations.DecodeIgnoresDirtyTail := by
  intro a b buf h hb _
  obtain ⟨hbelow, htail⟩ := outputBitsAreSourceBitsThenZero (u32 a) (byteCount (u32 a)) buf
  rw [transact_decode_of_match h hb]
  exact ⟨rspErr_successWord b, fun i hi => (hbelow i hi).trans (srcBit_byteCount hi buf), htail⟩

/-- The bits of a list of octets, octet by octet (R57). -/
theorem outBit_of_octet {out : List Octet} {j p : Nat} (hj : j < out.length) (hp : p < 8) :
    outBit out (8 * j + p) = out[j].getLsbD p := by
  rw [← srcBit_eq_outBit (L := out.length) (by omega), srcBit_of_octet _ _ _ hp, if_pos hj, srcOctet_eq_getElem hj]

/-- Lists of octets of one length are equal as soon as their bits are (R57). -/
theorem eq_of_outBit_eq {xs ys : List Octet} (hlen : xs.length = ys.length)
    (h : ∀ i, i < 8 * ys.length → outBit xs i = outBit ys i) : xs = ys := by
  refine List.ext_getElem hlen fun j hx hy => BitVec.eq_of_getLsbD_eq fun p hp => ?_
  rw [← outBit_of_octet hx hp, ← outBit_of_octet hy hp]
  exact h _ (by omega)

/-- A buffer of the right size is its own output exactly when its tail is zero (R168). -/
theorem outOctets_eq_self_iff {N : Nat} {buf : List Octet} (hlen : buf.length = byteCount N) :
    outOctets N (byteCount N) buf = buf ↔ ∀ i, N ≤ i → i < 8 * byteCount N → outBit buf i = false := by
  obtain ⟨hbelow, htail⟩ := outputBitsAreSourceBitsThenZero N (byteCount N) buf
  constructor
  · intro hself
    rwa [hself] at htail
  · intro hzero
    refine eq_of_outBit_eq ((length_outOctets N _ buf).trans hlen.symm) fun i hi => ?_
    rw [hlen] at hi
    by_cases hN : i < N
    · rw [hbelow i hN, srcBit_byteCount hN]
    · rw [htail i (by omega) hi, hzero i (by omega) hi]

/-! ### The round trip -/

/-- Settles O60: both directions are the idempotence of the output (R154), and DECODE gives the buffer back exactly
where the buffer is its own output. -/
theorem decodeOfEncodeRoundTrip : Obligations.DecodeOfEncodeRoundTrip := by
  intro a b c src h hc
  have hidem := encodingIsIdempotent.1 (u32 a)
  obtain ⟨hbelow, -⟩ := outputBitsAreSourceBitsThenZero (u32 a) (u32 b) src
  simp only [transact_encode_of_legal h, transact_decode_of_match h hc, hc]
  refine ⟨⟨congrArg (successWord c, ·) (hidem _ src), fun i hi => ?_⟩,
    fun buf hlen => ⟨hidem _ buf, outOctets_eq_self_iff hlen⟩⟩
  rw [hidem]
  exact hbelow i hi

end Sys2Proof.Machine
end

/-! SUPPORT and PROOF. The errors (spec/60_exceptions.md R182, R185): what each decision phase raises, the table of
R182 as one law of `decision`, and the answer to a reserved code. -/

section
namespace Sys2Proof.Machine

/-! ### What each decision phase raises -/

/-- BITWIDTH raises nothing (R114, R182). -/
theorem decideBitwidth_ne_raise (a : Word) (e : ErrorCode) : decideBitwidth a ≠ .raise e := nofun

theorem decideFullmask_eq_raise_iff {a : Word} {e : ErrorCode} :
    decideFullmask a = .raise e ↔ e = .invalidWidth ∧ u32 a > 32 := by
  by_cases hwidth : u32 a > 32
  · simp [decideFullmask_of_gt hwidth, hwidth, eq_comm]
  · simp [decideFullmask_of_le (Nat.not_lt.mp hwidth), hwidth]

theorem decideBytecount_eq_raise_iff {a : Word} {e : ErrorCode} :
    decideBytecount a = .raise e ↔ e = .invalidBitCount ∧ a.getLsbD 31 = true := by
  cases hsign : a.getLsbD 31 with
  | true => simp [decideBytecount_of_negative hsign, eq_comm]
  | false => simp [decideBytecount_of_legal hsign]

/-- ENCODE and BYTECOUNT check the count, and answer it, alike (R130, R140). -/
theorem decideEncode_eq_decideBytecount (a : Word) : decideEncode a = decideBytecount a := rfl

theorem decideDecode_of_negative {a : Word} (h : a.getLsbD 31 = true) (b : Word) :
    decideDecode a b = .raise .invalidBitCount := if_pos h

/-- The two errors of DECODE, of which a negative count is the first (R188). -/
theorem decideDecode_eq_raise_iff {a b : Word} {e : ErrorCode} :
    decideDecode a b = .raise e ↔
      (e = .invalidBitCount ∧ a.getLsbD 31 = true) ∨
      (e = .lengthMismatch ∧ a.getLsbD 31 = false ∧ u32 b ≠ byteCount (u32 a)) := by
  cases hsign : a.getLsbD 31 with
  | true => simp [decideDecode_of_negative hsign, eq_comm]
  | false =>
    by_cases hsize : u32 b = byteCount (u32 a)
    · simp [decideDecode_of_match hsign hsize, hsize]
    · simp [decideDecode_of_mismatch hsign hsize, hsize, eq_comm]

/-! ### The table -/

/-- The table of R182, a row per error: the commands that raise it, and on which condition. -/
def ErrorCode.Tabled (op : OpCode) (a b : Word) : ErrorCode → Prop
  | .invalidWidth => op = 0x1#4 ∧ u32 a > 32
  | .invalidBitCount => (op = 0x2#4 ∨ op = 0x3#4 ∨ op = 0x4#4) ∧ a.getLsbD 31 = true
  | .illegalOp => 0x5 ≤ op.toNat
  | .lengthMismatch => op = 0x4#4 ∧ a.getLsbD 31 = false ∧ u32 b ≠ byteCount (u32 a)

/-- A reserved code meets the condition of IllegalOp and of no other error (R188). -/
theorem ErrorCode.tabled_reserved_iff {op : OpCode} (h : 5 ≤ op.toNat) (a b : Word) (e : ErrorCode) :
    e.Tabled op a b ↔ e = .illegalOp := by
  have hne : ∀ k : OpCode, k.toNat < 5 → op ≠ k := by
    rintro k hk rfl
    omega
  cases e <;> simp [ErrorCode.Tabled, hne, h]

/-- The decision phase raises an error exactly on the table's row for it, code by code (R182). -/
theorem decision_eq_raise_iff (op : OpCode) (a b : Word) (e : ErrorCode) :
    decision op a b = .raise e ↔ e.Tabled op a b := by
  rcases opCode_cases op with rfl | rfl | rfl | rfl | rfl | hop
  · change decideBitwidth a = _ ↔ _
    cases e <;> simp [decideBitwidth_ne_raise, ErrorCode.Tabled]
  · change decideFullmask a = _ ↔ _
    cases e <;> simp [decideFullmask_eq_raise_iff, ErrorCode.Tabled]
  · change decideBytecount a = _ ↔ _
    cases e <;> simp [decideBytecount_eq_raise_iff, ErrorCode.Tabled]
  · change decideEncode a = _ ↔ _
    cases e <;> simp [decideEncode_eq_decideBytecount, decideBytecount_eq_raise_iff, ErrorCode.Tabled]
  · change decideDecode a b = _ ↔ _
    cases e <;> simp [decideDecode_eq_raise_iff, ErrorCode.Tabled]
  · rw [decision_reserved op a b hop, ErrorCode.tabled_reserved_iff hop, Decision.raise.injEq, eq_comm]

/-! ### The codes -/

/-- Code 0 is success alone (R182). -/
theorem rspCode_decisionWord_eq_zero_iff (d : Decision) :
    rspCode (decisionWord d) = 0#3 ↔ ∃ v, d = .respond v := by
  cases d with
  | respond v => simp [decisionWord]
  | raise e => simp [decisionWord, (errorCode_range e).1]

/-- Settles O23: the four conditions are the rows of `ErrorCode.Tabled`, and the codes are those of `decisionWord`. -/
theorem errorsRaisedExactlyAsTabled : Obligations.ErrorsRaisedExactlyAsTabled := by
  refine ⟨fun op a b => ?_, ⟨rfl, rfl, rfl, rfl⟩, fun op a b => ?_⟩
  · have hrow := decision_eq_raise_iff op a b
    exact ⟨hrow .invalidWidth, hrow .invalidBitCount, hrow .illegalOp, hrow .lengthMismatch⟩
  · obtain ⟨-, hcode, -⟩ := responseOk_decisionWord (decision op a b)
    exact ⟨rspCode_decisionWord_eq_zero_iff _, hcode⟩

/-! ### A reserved code -/

/-- The response word of IllegalOp (R181, R185). -/
theorem errorWord_illegalOp : errorWord .illegalOp = 0xB00000000#36 := by decide

/-- A reserved code has no data phase and ends in IllegalOp, whatever the operands (R185). -/
theorem State.accepted_of_reserved {op : OpCode} (h : 5 ≤ op.toNat) (s : State) (a b : Word) :
    s.accepted op a b = s.raise .illegalOp := by
  have hcodec : ¬(op = 3#4 ∨ op = 4#4) := by rintro (rfl | rfl) <;> exact absurd h (by decide)
  rw [State.accepted, if_neg hcodec, decision_reserved op a b h, State.conclude_raise]

/-- What is live after `raise E` is its error response, with no data phase to come (R181). -/
@[simp] theorem State.raise_view (s : State) (e : ErrorCode) : (s.raise e).ctx.view = .resp (errorWord e) none := rfl

/-- Settles O27: the CMD beat of a reserved code leaves the state `s.raise .illegalOp`. -/
theorem reservedCodeRaisesIllegalOp : Obligations.ReservedCodeRaisesIllegalOp := by
  intro s hs hr hp hv hop
  refine ⟨s.raise .illegalOp, ?_, ?_, hs, rfl⟩
  · rw [step_of_offer hs hr hp hv, State.accepted_of_reserved hop]
  · rw [State.raise_view, errorWord_illegalOp]

end Sys2Proof.Machine
end

/-! SUPPORT and PROOF. RESET and the four channels (spec/70_reset_and_hazards.md R210, R223): what an edge with `rst`
held leaves, which channels a phase closes, and the statements these settle. -/

section
namespace Sys2Proof.Machine

/-! ### Step RESET -/

/-- A property of the next `k + 1` samples, all of them driven by the requester, is one of the sample at the coming
edge and of the `k` samples after it. -/
theorem samples_succ {P : Pins → Prop} {k : Nat} {s : State} (hlen : k + 1 ≤ s.inputs.length)
    (h : ∀ p ∈ s.inputs.take (k + 1), P p) :
    P s.pins ∧ k ≤ s.inputs.tail.length ∧ ∀ p ∈ s.inputs.tail.take k, P p := by
  obtain ⟨rs, c, inputs⟩ := s
  cases inputs with
  | nil => exact absurd hlen (Nat.not_succ_le_zero k)
  | cons p ps =>
    obtain ⟨hp, hps⟩ := List.forall_mem_cons.mp h
    exact ⟨hp, Nat.le_of_succ_le_succ hlen, hps⟩

/-- One edge with `rst = 1` or many, from whatever state: the block is as right after reset, and nothing moved on a
channel (R210). -/
theorem run_of_rst_held {k : Nat} {s : State} (hlen : k + 1 ≤ s.inputs.length)
    (hrst : ∀ p ∈ s.inputs.take (k + 1), p.rst = true) :
    run (k + 1) s = .next { State.reset with inputs := s.inputs.drop (k + 1) } ∧ beats (k + 1) s = [] := by
  induction k generalizing s with
  | zero =>
    obtain ⟨hr, -, -⟩ := samples_succ hlen hrst
    rw [run_succ 0 s _ (step_of_rst s hr), beats_succ_of_rst 0 s hr, List.drop_one]
    exact ⟨rfl, rfl⟩
  | succ k ih =>
    obtain ⟨hr, hlen', hrst'⟩ := samples_succ hlen hrst
    rw [run_succ _ s _ (step_of_rst s hr), beats_succ_of_rst _ s hr, ← List.drop_tail]
    exact ih (s := s.resetStep) hlen' hrst'

/-- Settles O36: one edge is the step RESET, whose outputs are those of every context in IDLE, and held edges are
`run_of_rst_held`. -/
theorem resetAlwaysReachesIdle : Obligations.ResetAlwaysReachesIdle := by
  obtain ⟨outputs_of_idle, -⟩ := outputsFollowPhase
  refine ⟨fun s hr => ?_, fun s k hk hlen hrst => ?_⟩
  · exact ⟨s.resetStep, edge_of_rst s hr, step_of_rst s hr, s.resetStep_phase, s.resetStep_hold,
      view_of_idle s.resetStep_phase, s.resetStep_resetSeen, s.resetStep_inputs,
      outputs_of_idle _ s.resetStep_phase⟩
  · obtain ⟨j, rfl⟩ := Nat.exists_eq_add_of_le' hk
    obtain ⟨hrun, hbeats⟩ := run_of_rst_held hlen hrst
    exact ⟨_, hrun, view_of_idle rfl, rfl, rfl, hbeats⟩

/-! ### The channels that a phase closes -/

theorem cmdBeat_of_not_idle {c : Context} (h : c.phase ≠ .idle) (p : Pins) : cmdBeat c p = none :=
  cmdBeat_of_no_offer fun ⟨_, hidle⟩ => h hidle

theorem rspBeat_of_not_resp {c : Context} (h : c.phase ≠ .resp) (p : Pins) : rspBeat c p = none := by
  simp [rspBeat, Context.outputs, h]

theorem srcBeat_of_not_takeEnabled {c : Context} (h : c.takeEnabled = false) (p : Pins) : srcBeat c p = none := by
  simp [srcBeat, Context.outputs, h]

theorem outBeat_of_emitOctet_none {c : Context} (h : c.emitOctet = none) (p : Pins) : outBeat c p = none := by
  simp [outBeat, h]

theorem emitOctet_of_not_data {c : Context} (h : c.phase ≠ .data) : c.emitOctet = none :=
  Option.not_isSome_iff_eq_none.mp (Bool.eq_false_iff.mp (outValid_of_not_data h))

/-- Settles O33: every phase leaves one channel open at most, DATA the one of SRC and OUT that
`emitOctet_of_takeEnabled` leaves. -/
theorem atMostOneChannelBeats : Obligations.AtMostOneChannelBeats := by
  intro c p
  have hone (x : Option Beat) : ([x].filter (·.isSome)).length ≤ 1 := List.length_filter_le _ [x]
  by_cases hdata : c.phase = .data
  · rw [cmdBeat_of_not_idle (by simp [hdata]), rspBeat_of_not_resp (by simp [hdata])]
    cases htake : c.takeEnabled with
    | true =>
      rw [outBeat_of_emitOctet_none (emitOctet_of_takeEnabled c htake)]
      exact hone (srcBeat c p)
    | false =>
      rw [srcBeat_of_not_takeEnabled htake]
      exact hone (outBeat c p)
  · rw [srcBeat_of_not_takeEnabled (takeEnabled_of_not_data hdata),
      outBeat_of_emitOctet_none (emitOctet_of_not_data hdata)]
    by_cases hidle : c.phase = .idle
    · rw [rspBeat_of_not_resp (by simp [hidle])]
      exact hone (cmdBeat c p)
    · rw [cmdBeat_of_not_idle hidle]
      exact hone (rspBeat c p)

end Sys2Proof.Machine
end

/-! SUPPORT and PROOF. Every step once more (spec/10_state.md R28 to R33): that there is one, what it leaves of the
context invariant, and the statements these settle. -/

section
namespace Sys2Proof.Machine

/-! ### The decoder and step ACCEPT -/

/-- Settles O11: `decode_encode`, by the constructors of `Instr`. -/
theorem decodeReadsBackEncode : Obligations.DecodeReadsBackEncode := decode_encode

/-- A CMD beat with the command on the ports leaves `State.accepted` (R28). -/
theorem acceptCommand_command (s : State) :
    acceptCommand s.pins.command s = .next (s.accepted s.pins.cmdOp s.pins.cmdA s.pins.cmdB) := by
  rw [acceptCommand_eq, opField_command, aField_command, bField_command]
  rfl

/-- `exec` of an instruction is step ACCEPT of its code and operands (R28, R82). -/
theorem exec_eq_accepted (i : Instr) (s : State) : exec i s = .next (s.accepted i.opcode i.a i.b) := by
  rw [← acceptCommand_of_ok (decode_encode i), acceptCommand_eq, encode, opField_commandWord, aField_commandWord,
    bField_commandWord]
  rfl

/-- Settles O25: an offer in IDLE is a CMD beat, and a CMD beat runs the instruction its word decodes to. -/
theorem stepRunsDecodedCommand : Obligations.StepRunsDecodedCommand := by
  intro s i hs hr hp hv hdec
  rw [step_of_cmd s _ (edge_of_offer hs hr hp hv), acceptCommand_of_ok hdec]

/-! ### Every edge after the first RESET has a next state -/

theorem exists_step {s : State} (h : s.resetSeen = true ∨ s.pins.rst = true) :
    ∃ t, step s = .next t ∧ t.resetSeen = true ∧ t.inputs = s.inputs.tail := by
  rcases edge_cases s with ⟨-, hr⟩ | ⟨-, hr, hs⟩ | ⟨-, hs, ⟨he, -⟩ | ⟨b, he, hb⟩⟩
  · exact ⟨_, step_of_rst s hr, rfl, rfl⟩
  · simp [hr, hs] at h
  · exact ⟨_, step_of_waiting s he, hs, rfl⟩
  · rcases beatAt_cases _ _ _ hb with ⟨-, -, rfl⟩ | ⟨-, -, rfl⟩ | ⟨-, -, rfl⟩ | ⟨v, -, -, rfl⟩
    · obtain ⟨-, -, hseen, hinputs⟩ := s.answers_accepted s.pins.cmdOp s.pins.cmdA s.pins.cmdB
      exact ⟨_, (step_of_cmd s _ he).trans (acceptCommand_command s), hseen.trans hs, hinputs⟩
    · exact ⟨_, step_of_rsp s _ he, hs, rfl⟩
    · exact ⟨_, step_of_src s _ he, hs, rfl⟩
    · exact ⟨_, step_of_out s _ _ he, hs, rfl⟩

/-- Settles O38, by the kinds of edge: only the refusal before the first RESET is no next state. -/
theorem everyEdgeAfterResetHasANextState : Obligations.EveryEdgeAfterResetHasANextState := fun _ => exists_step

/-- What a step keeps of the state, whichever it is. -/
theorem resetSeen_and_inputs_of_step {s t : State} (hs : s.resetSeen = true) (h : step s = .next t) :
    t.resetSeen = true ∧ t.inputs = s.inputs.tail := by
  obtain ⟨t', h', hkept⟩ := exists_step (.inl hs)
  cases h.symm.trans h'
  exact hkept

/-- Settles O37: the edge is `beforeReset`, which `step` refuses. -/
theorem edgeBeforeFirstResetIsRefused : Obligations.EdgeBeforeFirstResetIsRefused := by
  intro c inputs hr
  have hedge : (State.powerUp c inputs).edge = .beforeReset := by
    rw [State.edge, hr]
    rfl
  exact ⟨by simp only [step, hedge], rfl⟩

/-! ### The context invariant -/

theorem inv_of_idle {c : Context} (h : c.phase = .idle) : c.Inv := by simp [Context.Inv, h]

theorem inv_iff_of_resp {c : Context} (h : c.phase = .resp) : c.Inv ↔ c.RespInv := by simp only [Context.Inv, h]

theorem inv_iff_of_data {c : Context} (h : c.phase = .data) :
    c.Inv ↔ c.nbytes.toNat = byteCount c.N.toNat ∧ c.o.toNat < c.nbytes.toNat ∧
      ∀ v, c.hold = some v → c.o.toNat < c.L.toNat ∧ v &&& keepMask c.o.toNat c.N.toNat = v := by
  simp only [Context.Inv, h, Context.DataInv]
  cases c.hold <;> simp

/-- Settles O39: the reset context is in IDLE. -/
theorem contextInvariantAtReset : Obligations.ContextInvariantAtReset :=
  ⟨inv_of_idle rfl, rfl, view_of_idle rfl⟩

/-- Where a data phase follows ACCEPT, `nbytes` is the byte count of `N`, and not 0 (R28, R30). -/
theorem State.accepted_nbytes {s : State} {op : OpCode} {a b : Word} (hgo : (s.accepted op a b).ctx.go = true) :
    (s.accepted op a b).ctx.nbytes.toNat = byteCount (s.accepted op a b).ctx.N.toNat ∧
      0 < (s.accepted op a b).ctx.nbytes.toNat := by
  obtain ⟨hop, v, hdec, hne⟩ := (s.accepted_go_iff op a b).mp hgo
  obtain ⟨hN, -, hdec'⟩ := State.accepted_operands hgo
  obtain ⟨hsign, hv⟩ := decision_respond_of_codec hop hdec
  obtain rfl := Decision.respond.inj (hdec.symm.trans hdec')
  have hval := congrArg BitVec.toNat hv
  rw [toNat_byteCount_word a hsign, BitVec.toNat_setWidth_of_le (by decide)] at hval
  refine ⟨hN ▸ hval, Nat.pos_of_ne_zero fun hzero => hne (BitVec.eq_of_toNat_eq ?_)⟩
  rw [BitVec.toNat_setWidth_of_le (by decide), hzero]
  rfl

/-- ACCEPT establishes the invariant, in whatever state. -/
theorem inv_accepted (s : State) (op : OpCode) (a b : Word) : (s.accepted op a b).ctx.Inv := by
  obtain ⟨hphase, hrw, -, -⟩ := s.answers_accepted op a b
  refine (inv_iff_of_resp hphase).mpr ⟨hrw ▸ responseOk_decisionWord _, fun hgo => ?_⟩
  obtain ⟨-, -, hdec⟩ := State.accepted_operands hgo
  exact ⟨by rw [hrw, hdec]; rfl, State.accepted_nbytes hgo⟩

theorem inv_respondStep {s : State} (hp : s.ctx.phase = .resp) (hinv : s.ctx.Inv) : s.respondStep.ctx.Inv := by
  obtain ⟨-, hdata⟩ := (inv_iff_of_resp hp).mp hinv
  cases hgo : s.ctx.go with
  | true =>
    obtain ⟨-, hbytes, hpos⟩ := hdata hgo
    rw [State.respondStep_of_go s hgo]
    exact (inv_iff_of_data rfl).mpr ⟨hbytes, hpos, nofun⟩
  | false =>
    rw [State.respondStep_of_not_go s hgo]
    exact inv_of_idle rfl

theorem inv_takeStep {s : State} (ht : s.ctx.takeEnabled = true) (hinv : s.ctx.Inv) (v : Octet) :
    (s.takeStep v).ctx.Inv := by
  obtain ⟨hdata, -, hlt⟩ := (takeEnabled_iff _).mp ht
  obtain ⟨hbytes, ho, -⟩ := (inv_iff_of_data hdata).mp hinv
  refine (inv_iff_of_data (c := (s.takeStep v).ctx) hdata).mpr ⟨hbytes, ho, fun w hw => ?_⟩
  cases hw
  exact ⟨(Nat.lt_min.mp hlt).1, by simp [BitVec.and_assoc]⟩

theorem inv_emitStep {s : State} {v : Octet} (he : s.ctx.emitOctet = some v) (hinv : s.ctx.Inv) :
    s.emitStep.ctx.Inv := by
  obtain ⟨hdata, hlt, -⟩ := (emitOctet_eq_some_iff _ _).mp he
  obtain ⟨hbytes, -, -⟩ := (inv_iff_of_data hdata).mp hinv
  by_cases hlast : s.ctx.isLast = true
  · exact inv_of_idle (by simp [hlast])
  · refine (inv_iff_of_data (by simp [hlast, hdata])).mpr ⟨hbytes, ?_, nofun⟩
    rw [isLast_iff] at hlast
    rw [toNat_emitStep_o hlt, State.emitStep_nbytes]
    omega

/-- The invariant is kept by every edge, step by step. -/
theorem step_keeps_inv {s t : State} (hinv : s.ctx.Inv) (h : step s = .next t) : t.ctx.Inv := by
  rcases step_cases s t h with ⟨-, rfl⟩ | ⟨-, -, ⟨-, -, rfl⟩ | ⟨-, -, -, hacc⟩ | ⟨-, hp, -, rfl⟩ |
    ⟨-, ht, -, rfl⟩ | ⟨v, -, he, -, rfl⟩⟩
  · exact inv_of_idle rfl
  · exact hinv
  · rw [acceptCommand_command] at hacc
    cases hacc
    exact inv_accepted s _ _ _
  · exact inv_respondStep hp hinv
  · exact inv_takeStep ht hinv _
  · exact inv_emitStep he hinv

/-- Settles O40. -/
theorem everyStepKeepsContextInvariant : Obligations.EveryStepKeepsContextInvariant := fun _ _ => step_keeps_inv

end Sys2Proof.Machine
end

/-! SUPPORT and PROOF. The transaction in progress (spec/10_state.md R29 to R36): the beats that a context still owes,
as a function of the source octets to come; every beat takes the first of them off. Progress (R227), whole
transactions under any requester, and the statements these settle. -/

section
namespace Sys2Proof.Machine

/-! ### The beats a context still owes -/

/-- The beats of a data phase from octet `o` on, with `n` octets still to send and `src` the octets the requester
has yet to supply: `dataBeats` by recursion (R34). -/
def dataBeatsFrom (N L : Nat) : Nat → Nat → List Octet → List Beat
  | 0, _, _ => []
  | n + 1, o, src =>
    if o < L then
      .src (src.headD 0x00#8) :: .out (src.headD 0x00#8 &&& keepMask o N) (decide (n = 0)) ::
        dataBeatsFrom N L n (o + 1) src.tail
    else .out 0x00#8 (decide (n = 0)) :: dataBeatsFrom N L n (o + 1) src

/-- The beats that the transaction in progress still needs, with `src` the octets the requester has yet to supply. -/
def Context.owed (c : Context) (src : List Octet) : List Beat :=
  match c.phase with
  | .idle => []
  | .resp => .rsp c.rw :: if c.go then dataBeatsFrom c.N.toNat c.L.toNat c.nbytes.toNat 0 src else []
  | .data =>
    match c.hold with
    | none => dataBeatsFrom c.N.toNat c.L.toNat (c.nbytes.toNat - c.o.toNat) c.o.toNat src
    | some v =>
      .out v c.isLast :: dataBeatsFrom c.N.toNat c.L.toNat (c.nbytes.toNat - (c.o.toNat + 1)) (c.o.toNat + 1) src

theorem owed_of_idle {c : Context} (h : c.phase = .idle) (src : List Octet) : c.owed src = [] := by
  simp only [Context.owed, h]

theorem owed_of_resp {c : Context} (h : c.phase = .resp) (src : List Octet) :
    c.owed src = .rsp c.rw :: if c.go then dataBeatsFrom c.N.toNat c.L.toNat c.nbytes.toNat 0 src else [] := by
  simp only [Context.owed, h]

theorem owed_of_none_held {c : Context} (h : c.phase = .data) (hnone : c.hold = none) (src : List Octet) :
    c.owed src = dataBeatsFrom c.N.toNat c.L.toNat (c.nbytes.toNat - c.o.toNat) c.o.toNat src := by
  simp only [Context.owed, h, hnone]

theorem owed_of_held {c : Context} {v : Octet} (h : c.phase = .data) (hheld : c.hold = some v) (src : List Octet) :
    c.owed src = .out v c.isLast ::
      dataBeatsFrom c.N.toNat c.L.toNat (c.nbytes.toNat - (c.o.toNat + 1)) (c.o.toNat + 1) src := by
  simp only [Context.owed, h, hheld]

/-! ### Each step delivers the first beat owed -/

theorem owed_respondStep {s : State} (hp : s.ctx.phase = .resp) (src : List Octet) :
    s.ctx.owed src = .rsp s.ctx.rw :: s.respondStep.ctx.owed src := by
  rw [owed_of_resp hp]
  cases hgo : s.ctx.go with
  | true =>
    rw [State.respondStep_of_go s hgo, owed_of_none_held rfl rfl]
    rfl
  | false =>
    rw [State.respondStep_of_not_go s hgo, owed_of_idle rfl]
    rfl

/-- Whether octet `o` is the last one, by the octets that remain after it. -/
theorem isLast_eq_decide {c : Context} {n : Nat} (h : c.nbytes.toNat - c.o.toNat = n + 1) :
    c.isLast = decide (n = 0) :=
  decide_eq_decide.mpr (by omega)

theorem owed_takeStep {s : State} (ht : s.ctx.takeEnabled = true) (src : List Octet) :
    s.ctx.owed src = .src (src.headD 0x00#8) :: (s.takeStep (src.headD 0x00#8)).ctx.owed src.tail := by
  obtain ⟨hdata, hnone, hlt⟩ := (takeEnabled_iff _).mp ht
  obtain ⟨hL, hbytes⟩ := Nat.lt_min.mp hlt
  obtain ⟨n, hn⟩ := Nat.exists_eq_succ_of_ne_zero (Nat.sub_ne_zero_of_lt hbytes)
  have hrest : s.ctx.nbytes.toNat - (s.ctx.o.toNat + 1) = n := by omega
  rw [owed_of_none_held hdata hnone, hn, dataBeatsFrom, if_pos hL, owed_of_held (c := (s.takeStep _).ctx) hdata rfl]
  simp only [State.takeStep_N, State.takeStep_L, State.takeStep_nbytes, State.takeStep_o, hrest,
    isLast_eq_decide (c := (s.takeStep (src.headD 0x00#8)).ctx) hn]

/-- After EMIT the beats of the octets from `o + 1` on are owed; there is none where the block is in IDLE. -/
theorem owed_of_emitStep {s : State} (hdata : s.ctx.phase = .data) (hlt : s.ctx.o.toNat < s.ctx.nbytes.toNat)
    (src : List Octet) :
    s.emitStep.ctx.owed src = dataBeatsFrom s.ctx.N.toNat s.ctx.L.toNat (s.ctx.nbytes.toNat - (s.ctx.o.toNat + 1))
      (s.ctx.o.toNat + 1) src := by
  by_cases hlast : s.ctx.isLast = true
  · rw [owed_of_idle (by simp [hlast]), (isLast_iff _).mp hlast, Nat.sub_self, dataBeatsFrom]
  · rw [owed_of_none_held (by simp [hlast, hdata]) rfl, toNat_emitStep_o hlt]
    rfl

theorem owed_emitStep {s : State} {v : Octet} (he : s.ctx.emitOctet = some v) (src : List Octet) :
    s.ctx.owed src = .out v s.ctx.isLast :: s.emitStep.ctx.owed src := by
  obtain ⟨hdata, hlt, hheld | ⟨hnone, hL, rfl⟩⟩ := (emitOctet_eq_some_iff _ _).mp he
  · rw [owed_of_held hdata hheld, owed_of_emitStep hdata hlt]
  · obtain ⟨n, hn⟩ := Nat.exists_eq_succ_of_ne_zero (Nat.sub_ne_zero_of_lt hlt)
    have hrest : s.ctx.nbytes.toNat - (s.ctx.o.toNat + 1) = n := by omega
    rw [owed_of_none_held hdata hnone, hn, dataBeatsFrom, if_neg (Nat.not_lt.mpr hL), owed_of_emitStep hdata hlt,
      hrest, isLast_eq_decide hn]

/-- A beat other than a CMD beat is the first beat owed, and the step leaves the others owed (R34). -/
theorem owed_of_beat {s t : State} {b : Beat} (he : s.edge = .beat b) (hcmd : b.isCmd = false)
    (h : step s = .next t) (src : List Octet) : s.ctx.owed (takenOctets [b] ++ src) = b :: t.ctx.owed src := by
  obtain ⟨-, -, hb⟩ := (edge_eq_beat_iff s b).mp he
  rcases beatAt_cases _ _ _ hb with ⟨-, -, rfl⟩ | ⟨hp, -, rfl⟩ | ⟨ht, -, rfl⟩ | ⟨v, hv, -, rfl⟩
  · cases hcmd
  · rw [step_of_rsp s _ he] at h
    cases h
    exact owed_respondStep hp src
  · rw [step_of_src s _ he] at h
    cases h
    exact owed_takeStep ht _
  · rw [step_of_out s _ _ he] at h
    cases h
    exact owed_emitStep hv src

/-! ### Progress -/

/-- `n` octets need `n` OUT beats, and an SRC beat for each of them below the extent. -/
theorem length_dataBeatsFrom (N L n o : Nat) (src : List Octet) :
    (dataBeatsFrom N L n o src).length = n + (min L (o + n) - o) := by
  induction n generalizing o src with
  | zero => simp [dataBeatsFrom]
  | succ n ih =>
    rw [dataBeatsFrom]
    split <;> simp only [List.length_cons, ih] <;> omega

/-- `remaining` counts the beats owed (R227). -/
theorem length_owed {c : Context} (hinv : c.Inv) (src : List Octet) : (c.owed src).length = c.remaining := by
  cases hp : c.phase with
  | idle => simp [owed_of_idle hp, Context.remaining, hp]
  | resp =>
    rw [owed_of_resp hp]
    simp only [Context.remaining, hp, List.length_cons]
    split
    · rw [length_dataBeatsFrom]
      omega
    · rfl
  | data =>
    obtain ⟨-, hlt, hheldInv⟩ := (inv_iff_of_data hp).mp hinv
    cases hheld : c.hold with
    | none =>
      rw [owed_of_none_held hp hheld, length_dataBeatsFrom]
      simp only [Context.remaining, hp, hheld, Option.isSome_none, Bool.false_eq_true, if_false]
      omega
    | some v =>
      obtain ⟨hL, -⟩ := hheldInv v hheld
      rw [owed_of_held hp hheld, List.length_cons, length_dataBeatsFrom]
      simp only [Context.remaining, hp, hheld, Option.isSome_some, if_true]
      omega

/-- A data phase that meets the invariant waits for the source or has an octet to send (R34). -/
theorem takeEnabled_or_emitOctet {c : Context} (hinv : c.Inv) (hdata : c.phase = .data) :
    c.takeEnabled = true ∨ ∃ v, c.emitOctet = some v := by
  rw [takeEnabled_iff_not_outValid hinv hdata]
  exact (em (c.outputs.outValid = true)).symm.imp_right Option.isSome_iff_exists.mp

/-- Nothing is owed in IDLE, and only there. -/
theorem owed_eq_nil_iff {c : Context} (hinv : c.Inv) (src : List Octet) : c.owed src = [] ↔ c.phase = .idle := by
  refine ⟨fun hnil => ?_, fun hidle => owed_of_idle hidle src⟩
  cases hp : c.phase with
  | idle => rfl
  | resp => rw [owed_of_resp hp] at hnil; cases hnil
  | data =>
    rcases takeEnabled_or_emitOctet hinv hp with ht | ⟨v, hv⟩
    · rw [owed_takeStep (s := ⟨true, c, []⟩) ht] at hnil; cases hnil
    · rw [owed_emitStep (s := ⟨true, c, []⟩) hv] at hnil; cases hnil

theorem remaining_eq_zero_iff {c : Context} (hinv : c.Inv) : c.remaining = 0 ↔ c.phase = .idle := by
  rw [← length_owed hinv [], List.length_eq_zero_iff, owed_eq_nil_iff hinv]

theorem remaining_of_beat {s t : State} {b : Beat} (hinv : s.ctx.Inv) (he : s.edge = .beat b)
    (hcmd : b.isCmd = false) (h : step s = .next t) : t.ctx.remaining + 1 = s.ctx.remaining := by
  rw [← length_owed hinv (takenOctets [b] ++ []), owed_of_beat he hcmd h, List.length_cons,
    length_owed (step_keeps_inv hinv h)]

/-- Settles O41: the beats owed lose their first at each beat, and `remaining` counts them. -/
theorem eachBeatIsProgress : Obligations.EachBeatIsProgress :=
  ⟨fun _ _ _ => remaining_of_beat, fun _ => remaining_eq_zero_iff⟩

/-- An edge at which the requester keeps every channel going is a beat of the transaction in progress (R227). -/
theorem beat_of_willing {s : State} (hs : s.resetSeen = true) (hinv : s.ctx.Inv) (hp : s.ctx.phase ≠ .idle)
    (hw : s.pins.willing = true) : ∃ b, s.edge = .beat b ∧ b.isCmd = false := by
  obtain ⟨⟨⟨hr, hrsp⟩, hsrc⟩, hout⟩ : ((s.pins.rst = false ∧ s.pins.rspReady = true) ∧ s.pins.srcValid = true) ∧
      s.pins.outReady = true := by simpa [Pins.willing] using hw
  cases hphase : s.ctx.phase with
  | idle => exact absurd hphase hp
  | resp => exact ⟨_, edge_of_beatAt hs hr (by rw [beatAt_of_resp _ _ hphase, if_pos hrsp]), rfl⟩
  | data =>
    rcases takeEnabled_or_emitOctet hinv hphase with ht | ⟨v, hv⟩
    · exact ⟨_, edge_of_take hs hr ht hsrc, rfl⟩
    · exact ⟨_, edge_of_emit hs hr hv hout, rfl⟩

theorem run_of_willing {n : Nat} {s : State} (hs : s.resetSeen = true) (hinv : s.ctx.Inv)
    (hn : s.ctx.remaining = n) (hlen : n ≤ s.inputs.length) (hw : ∀ p ∈ s.inputs.take n, p.willing = true) :
    ∃ t, run n s = .next t ∧ t.ctx.phase = .idle ∧ (beats n s).length = n ∧ t.inputs = s.inputs.drop n := by
  induction n generalizing s with
  | zero => exact ⟨s, rfl, (remaining_eq_zero_iff hinv).mp hn, rfl, rfl⟩
  | succ n ih =>
    have hp : s.ctx.phase ≠ .idle := fun hidle => by rw [(remaining_eq_zero_iff hinv).mpr hidle] at hn; cases hn
    obtain ⟨hnow, hlen', hlater⟩ := samples_succ hlen hw
    obtain ⟨b, he, hcmd⟩ := beat_of_willing hs hinv hp hnow
    obtain ⟨t, h, ht, hinputs⟩ := exists_step (.inl hs)
    have hleft := remaining_of_beat hinv he hcmd h
    obtain ⟨u, hrun, hidle, hbeats, hrest⟩ :=
      ih ht (step_keeps_inv hinv h) (by omega) (hinputs ▸ hlen') (hinputs ▸ hlater)
    refine ⟨u, (run_succ n s t h).trans hrun, hidle, ?_, ?_⟩
    · rw [beats_succ_of_beat n s t b he h, List.length_cons, hbeats]
    · rw [hrest, hinputs, List.drop_tail]

/-- Settles O42, by induction on the beats left. -/
theorem willingRequesterReachesIdle : Obligations.WillingRequesterReachesIdle :=
  fun _ hs hinv _ hlen hw => run_of_willing hs hinv rfl hlen hw

end Sys2Proof.Machine
end

/-! SUPPORT and PROOF. The transaction of a command word (spec/10_state.md R36) as the beats owed after its CMD beat,
and the runs that deliver it, under any requester and under one that serves it (spec/70_reset_and_hazards.md R215 to
R221), with the statements these settle. -/

section
namespace Sys2Proof.Machine

/-! ### The transaction of a command word -/

/-- The beats of octet `j` in a data phase: TAKE when `j < L`, then EMIT (R34). -/
def octetBeats (L : Nat) (src out : List Octet) (j : Nat) : List Beat :=
  (if j < L then [.src (srcOctet src j)] else []) ++ [.out (out.getD j 0x00#8) (decide (j + 1 = out.length))]

theorem dataBeats_eq_flatMap (L : Nat) (src out : List Octet) :
    dataBeats L src out = (List.range out.length).flatMap (octetBeats L src out) := rfl

/-- The next octet of a source of which `j` octets are gone. -/
theorem headD_drop (src : List Octet) (j : Nat) : (src.drop j).headD 0x00#8 = srcOctet src j := by
  rw [srcOctet, List.headD_eq_head?_getD, List.head?_drop, List.getD_eq_getElem?_getD]

theorem octetBeats_outOctets {N j : Nat} (hj : j < byteCount N) (L : Nat) (src : List Octet) :
    octetBeats L src (outOctets N L src) j =
      (if j < L then [.src (srcOctet src j)] else []) ++
        [.out (outOctet N L src j) (decide (j + 1 = byteCount N))] := by
  rw [octetBeats, getD_outOctets hj, length_outOctets]

/-- The recursion of `dataBeatsFrom` follows the indices of R34: from octet `o` on, the octets below `o` that exist
have been taken. -/
theorem flatMap_octetBeats {N o n : Nat} (h : o + n = byteCount N) (L : Nat) (src : List Octet) :
    (List.range' o n).flatMap (octetBeats L src (outOctets N L src)) =
      dataBeatsFrom N L n o (src.drop (min o L)) := by
  induction n generalizing o with
  | zero => rfl
  | succ n ih =>
    have hlast : decide (o + 1 = byteCount N) = decide (n = 0) := decide_eq_decide.mpr (by omega)
    rw [List.range'_succ, List.flatMap_cons, ih (by omega), octetBeats_outOctets (by omega), hlast, dataBeatsFrom]
    split
    next hlt =>
      rw [min_eq_left (Nat.succ_le_of_lt hlt), min_eq_left hlt.le, headD_drop, List.tail_drop, outOctet, if_pos hlt]
      rfl
    next hge =>
      rw [min_eq_right (by omega), min_eq_right (by omega), outOctet_of_le (by omega)]
      rfl

/-- The data phase of R34 in both forms. -/
theorem dataBeats_outOctets (N L : Nat) (src : List Octet) :
    dataBeats L src (outOctets N L src) = dataBeatsFrom N L (byteCount N) 0 src := by
  rw [dataBeats_eq_flatMap, length_outOctets, List.range_eq_range', flatMap_octetBeats (Nat.zero_add _), Nat.zero_min,
    List.drop_zero]

theorem transact_fst (op : OpCode) (a b : Word) (src : List Octet) :
    (transact op a b src).1 = decisionWord (decision op a b) := by
  rw [transact]
  cases decision op a b <;> rfl

/-- A transaction has an output exactly where ACCEPT announces a data phase (R28, R30, R36). -/
theorem transact_snd (s : State) (op : OpCode) (a b : Word) (src : List Octet) :
    (transact op a b src).2 = if (s.accepted op a b).ctx.go then outOctets (u32 a) (u32 b) src else [] := by
  split
  next hgo =>
    obtain ⟨hop, v, hdec, -⟩ := (s.accepted_go_iff op a b).mp hgo
    rw [transact_of_respond hop hdec]
  next hgo =>
    rw [State.accepted_go_iff] at hgo
    cases hdec : decision op a b with
    | raise e => simp only [transact, hdec]
    | respond v =>
      by_cases hop : op = 3#4 ∨ op = 4#4
      · obtain rfl : v = 0#32 := by
          by_contra hne
          exact hgo ⟨hop, v, hdec, hne⟩
        obtain ⟨hsign, hv⟩ := decision_respond_of_codec hop hdec
        have hzero : byteCount (u32 a) = 0 := by rw [← toNat_byteCount_word a hsign, ← hv]; rfl
        rw [transact_of_respond hop hdec, outOctets, hzero]
        rfl
      · simp only [transact, hdec, if_neg hop]

/-- The transaction of a command word is its CMD beat and what is owed after it (R34, R36). -/
theorem transactionBeats_eq_owed (s : State) (cw : CommandWord) (src : List Octet) :
    transactionBeats cw src = .cmd cw :: (s.accepted (opField cw) (aField cw) (bField cw)).ctx.owed src := by
  obtain ⟨hphase, hrw, -, -⟩ := s.answers_accepted (opField cw) (aField cw) (bField cw)
  simp only [transactionBeats, transact_fst, transact_snd s, owed_of_resp hphase, hrw]
  split
  next hgo =>
    obtain ⟨hN, hL, -⟩ := State.accepted_operands hgo
    obtain ⟨hbytes, -⟩ := State.accepted_nbytes hgo
    rw [dataBeats_outOctets, hbytes, hN, hL]
    rfl
  next => rfl

/-- Each octet is one OUT beat, and one SRC beat where it is below the extent. -/
theorem length_flatMap_octetBeats (L : Nat) (src out : List Octet) (js : List Nat) :
    (js.flatMap (octetBeats L src out)).length =
      (js.flatMap fun j => if j < L then [j] else []).length + js.length := by
  induction js with
  | nil => rfl
  | cons j js ih =>
    simp only [List.flatMap_cons, List.length_append, List.length_cons, ih, octetBeats]
    split <;> simp only [List.length_cons, List.length_nil] <;> omega

theorem length_dataBeats (L : Nat) (src out : List Octet) :
    (dataBeats L src out).length = min L out.length + out.length := by
  rw [dataBeats_eq_flatMap, length_flatMap_octetBeats, flatMap_range_of_lt L _ fun j => j, List.length_map,
    List.length_range, List.length_range]

/-- A response with a data phase announces the number of octets to come, the byte count (R28, R31). -/
theorem length_of_transact_snd {op : OpCode} {a b : Word} {src : List Octet} (h : (transact op a b src).2 ≠ []) :
    (transact op a b src).2.length = (rspData (transact op a b src).1).toNat ∧
      (transact op a b src).2.length = byteCount (u32 a) := by
  rw [transact_snd State.reset] at h ⊢
  split at h
  next hgo =>
    obtain ⟨hop, v, hdec, -⟩ := (State.reset.accepted_go_iff op a b).mp hgo
    obtain ⟨hsign, rfl⟩ := decision_respond_of_codec hop hdec
    rw [if_pos hgo, length_outOctets, transact_fst, hdec, decisionWord, rspData_successWord,
      toNat_byteCount_word a hsign]
    exact ⟨rfl, rfl⟩
  next => exact absurd rfl h

/-- Settles O48: CMD and RSP move no octet, and the data beats take, send and number what `dataBeats` does. -/
theorem transactionCountsItsBeats : Obligations.TransactionCountsItsBeats := by
  refine fun cw src => ⟨takenOctets_dataBeats _ _ _, sentOctets_dataBeats _ _ _, ?_, length_of_transact_snd,
    fun src' => by rw [transact_fst, transact_fst]⟩
  rw [transactionBeats, List.length_cons, List.length_cons, length_dataBeats]
  omega

/-! ### Runs without reset -/

/-- A property of the next `k + 1` samples is one of the sample at the coming edge and of the `k` samples after it,
where the quiet ports past the end of the samples have it too. -/
theorem samples_succ_of_quiet {P : Pins → Prop} (hquiet : P Pins.quiet) {k : Nat} {s : State}
    (h : ∀ p ∈ s.inputs.take (k + 1), P p) : P s.pins ∧ ∀ p ∈ s.inputs.tail.take k, P p := by
  obtain ⟨rs, c, inputs⟩ := s
  cases inputs with
  | nil => exact ⟨hquiet, by simp⟩
  | cons p ps => exact List.forall_mem_cons.mp h

/-- The requester does not reset at the next `k` edges of a block past its first RESET. -/
def State.LiveFor (s : State) (k : Nat) : Prop := s.resetSeen = true ∧ ∀ p ∈ s.inputs.take k, p.rst = false

theorem State.LiveFor.rst {s : State} {k : Nat} (h : s.LiveFor (k + 1)) : s.pins.rst = false := by
  obtain ⟨-, hrst⟩ := h
  obtain ⟨hr, -⟩ := samples_succ_of_quiet (P := fun p => p.rst = false) rfl hrst
  exact hr

theorem State.LiveFor.next {s t : State} {k : Nat} (h : s.LiveFor (k + 1)) (hstep : step s = .next t) :
    t.LiveFor k := by
  obtain ⟨hs, hrst⟩ := h
  obtain ⟨ht, hinputs⟩ := resetSeen_and_inputs_of_step hs hstep
  obtain ⟨-, hrst'⟩ := samples_succ_of_quiet (P := fun p => p.rst = false) rfl hrst
  exact ⟨ht, hinputs ▸ hrst'⟩

/-- An edge without reset lets the block wait or is a beat. -/
theorem State.LiveFor.step_cases {s : State} {k : Nat} (h : s.LiveFor (k + 1)) :
    (s.edge = .waiting ∧ step s = .next s.tick ∧ s.tick.LiveFor k) ∨
    ∃ b t, s.edge = .beat b ∧ step s = .next t ∧ t.LiveFor k := by
  have hr := h.rst
  have hs := h.1
  rcases edge_cases s with ⟨-, hr'⟩ | ⟨-, -, hs'⟩ | ⟨-, -, ⟨he, -⟩ | ⟨b, he, -⟩⟩
  · rw [hr] at hr'; cases hr'
  · rw [hs] at hs'; cases hs'
  · have hstep := step_of_waiting s he
    exact .inl ⟨he, hstep, h.next hstep⟩
  · obtain ⟨t, hstep, -⟩ := exists_step (.inl hs)
    exact .inr ⟨b, t, he, hstep, h.next hstep⟩

/-- A run without reset has a next state after every number of edges (R221). -/
theorem exists_run {s : State} {k : Nat} (h : s.LiveFor k) : ∃ t, run k s = .next t := by
  induction k generalizing s with
  | zero => exact ⟨s, rfl⟩
  | succ k ih =>
    rcases h.step_cases with ⟨-, hstep, h'⟩ | ⟨b, u, -, hstep, h'⟩
    all_goals
      obtain ⟨t, hrun⟩ := ih h'
      exact ⟨t, (run_succ k s _ hstep).trans hrun⟩

/-! ### Any requester -/

/-- As long as no CMD beat comes, the beats of a run are the first beats owed, and what it leaves owed are the
others. -/
theorem owed_of_run {k : Nat} {s t : State} (h : s.LiveFor k) (hcmd : ∀ b ∈ beats k s, b.isCmd = false)
    (hrun : run k s = .next t) (src : List Octet) :
    s.ctx.owed (takenOctets (beats k s) ++ src) = beats k s ++ t.ctx.owed src := by
  induction k generalizing s with
  | zero => cases hrun; rfl
  | succ k ih =>
    rcases h.step_cases with ⟨he, hstep, h'⟩ | ⟨b, u, he, hstep, h'⟩
    · rw [run_succ k s _ hstep] at hrun
      rw [beats_succ_of_waiting k s he] at hcmd ⊢
      exact ih h' hcmd hrun
    · rw [run_succ k s u hstep] at hrun
      rw [beats_succ_of_beat k s u b he hstep] at hcmd ⊢
      obtain ⟨hb, hcmd'⟩ := List.forall_mem_cons.mp hcmd
      have htaken : takenOctets (b :: beats k u) = takenOctets [b] ++ takenOctets (beats k u) :=
        takenOctets_append [b] (beats k u)
      rw [htaken, List.append_assoc, owed_of_beat he hb hstep, ih h' hcmd' hrun, List.cons_append]

/-- In IDLE the first beat is a CMD beat, and it makes its transaction owed. -/
theorem transactionBeats_of_run {k : Nat} {s t : State} {cw : CommandWord} {bs : List Beat} (h : s.LiveFor k)
    (hp : s.ctx.phase = .idle) (hbeats : beats k s = .cmd cw :: bs) (hcmd : ∀ b ∈ bs, b.isCmd = false)
    (hrun : run k s = .next t) (src : List Octet) :
    transactionBeats cw (takenOctets bs ++ src) = (.cmd cw :: bs) ++ t.ctx.owed src := by
  induction k generalizing s with
  | zero => cases hbeats
  | succ k ih =>
    rcases h.step_cases with ⟨he, hstep, h'⟩ | ⟨b, u, he, hstep, h'⟩
    · rw [run_succ k s _ hstep] at hrun
      rw [beats_succ_of_waiting k s he] at hbeats
      exact ih h' hp hbeats hrun
    · rw [run_succ k s u hstep] at hrun
      rw [beats_succ_of_beat k s u b he hstep] at hbeats
      obtain ⟨rfl, rfl⟩ := List.cons.inj hbeats
      rw [step_of_cmd s cw he, acceptCommand_eq] at hstep
      cases hstep
      rw [transactionBeats_eq_owed s, List.cons_append]
      exact congrArg _ (owed_of_run h' hcmd hrun src)

/-- Settles O46: what is still owed makes the beats a whole transaction, and in IDLE that is nothing. -/
theorem anyRequesterSeesOnlyTheTransaction : Obligations.AnyRequesterSeesOnlyTheTransaction := by
  intro k s cw bs hs hp hrst hbeats hcmd
  have hwhole {t} (hrun : run k s = .next t) :
      transactionBeats cw (takenOctets bs) = (.cmd cw :: bs) ++ t.ctx.owed [] := by
    rw [← transactionBeats_of_run ⟨hs, hrst⟩ hp hbeats hcmd hrun, List.append_nil]
  obtain ⟨t, hrun⟩ := exists_run ⟨hs, hrst⟩
  refine ⟨⟨_, (hwhole hrun).symm⟩, fun t' hrun' hidle => ?_⟩
  rw [hwhole hrun', owed_of_idle hidle, List.append_nil]

/-! ### A requester that serves the beats owed -/

/-- The beats that the block owes now and for the commands that follow. -/
def State.Expects (s : State) (bs : List Beat) : Prop :=
  ∃ (src : List Octet) (cmds : List (CommandWord × List Octet)),
    bs = s.ctx.owed src ++ cmds.flatMap fun c => transactionBeats c.1 c.2

/-- The block is ready for the beat `b`: it has raised its side of the channel, with the beat's payload. -/
def Context.ReadyFor (c : Context) : Beat → Prop
  | .cmd _ => c.phase = .idle
  | .rsp rw => c.phase = .resp ∧ c.rw = rw
  | .src _ => c.takeEnabled = true
  | .out v last => c.emitOctet = some v ∧ c.isLast = last

/-- A sample that answers a beat that the block is ready for makes it. -/
theorem edge_of_answers {s : State} {b : Beat} (hs : s.resetSeen = true) (hb : s.ctx.ReadyFor b)
    (h : s.pins.answers b = true) : s.edge = .beat b := by
  cases b with
  | cmd cw =>
    obtain ⟨⟨hr, hv⟩, rfl⟩ : (s.pins.rst = false ∧ s.pins.cmdValid = true) ∧ s.pins.command = cw := by
      simpa [Pins.answers] using h
    exact edge_of_offer hs hr hb hv
  | rsp rw =>
    obtain ⟨hr, hv⟩ : s.pins.rst = false ∧ s.pins.rspReady = true := by simpa [Pins.answers] using h
    obtain ⟨hp, rfl⟩ := hb
    exact edge_of_beatAt hs hr (by rw [beatAt_of_resp _ _ hp, if_pos hv])
  | src v =>
    obtain ⟨⟨hr, hv⟩, rfl⟩ : (s.pins.rst = false ∧ s.pins.srcValid = true) ∧ s.pins.srcData = v := by
      simpa [Pins.answers] using h
    exact edge_of_take hs hr hb hv
  | out v last =>
    obtain ⟨hr, hv⟩ : s.pins.rst = false ∧ s.pins.outReady = true := by simpa [Pins.answers] using h
    obtain ⟨he, rfl⟩ := hb
    exact edge_of_emit hs hr he hv

/-- Where the context and the ports make no beat, the block waits (R24, R221). -/
theorem edge_of_beatAt_none {s : State} (hs : s.resetSeen = true) (hr : s.pins.rst = false)
    (hb : beatAt s.ctx s.pins = none) : s.edge = .waiting := by
  rw [edge_of_live s hs hr, hb]

/-- A sample that declines a beat that the block is ready for lets it wait: no other channel has a beat (R223). -/
theorem edge_of_declines {s : State} {b : Beat} (hs : s.resetSeen = true) (hb : s.ctx.ReadyFor b)
    (h : s.pins.declines b = true) : s.edge = .waiting := by
  cases b with
  | cmd cw =>
    obtain ⟨hr, hv⟩ : s.pins.rst = false ∧ s.pins.cmdValid = false := by simpa [Pins.declines] using h
    exact edge_of_beatAt_none hs hr (by simp [beatAt_of_idle _ _ hb, hv])
  | rsp rw =>
    obtain ⟨hr, hv⟩ : s.pins.rst = false ∧ s.pins.rspReady = false := by simpa [Pins.declines] using h
    exact edge_of_beatAt_none hs hr (by simp [beatAt_of_resp _ _ hb.1, hv])
  | src v =>
    obtain ⟨hr, hv⟩ : s.pins.rst = false ∧ s.pins.srcValid = false := by simpa [Pins.declines] using h
    exact edge_of_beatAt_none hs hr (by simp [beatAt_of_takeEnabled _ _ hb, hv])
  | out v last =>
    obtain ⟨hr, hv⟩ : s.pins.rst = false ∧ s.pins.outReady = false := by simpa [Pins.declines] using h
    exact edge_of_beatAt_none hs hr (by simp [beatAt_of_emitOctet _ _ v hb.1, hv])

/-- The block is ready for the first beat it is expected to make, and when it is made expects the others. -/
theorem State.Expects.head {s : State} {b : Beat} {bs : List Beat} (hinv : s.ctx.Inv) (h : s.Expects (b :: bs)) :
    s.ctx.ReadyFor b ∧ ∀ t, s.edge = .beat b → step s = .next t → t.Expects bs := by
  obtain ⟨src, cmds, h⟩ := h
  cases hp : s.ctx.phase with
  | idle =>
    rw [owed_of_idle hp, List.nil_append] at h
    cases cmds with
    | nil => cases h
    | cons c cmds =>
      rw [List.flatMap_cons, transactionBeats_eq_owed s, List.cons_append] at h
      obtain ⟨rfl, rfl⟩ := List.cons.inj h
      refine ⟨hp, fun t he hstep => ⟨c.2, cmds, ?_⟩⟩
      rw [step_of_cmd s _ he, acceptCommand_eq] at hstep
      cases hstep
      rfl
  | resp =>
    rw [owed_respondStep hp, List.cons_append] at h
    obtain ⟨rfl, rfl⟩ := List.cons.inj h
    refine ⟨⟨hp, rfl⟩, fun t he hstep => ⟨src, cmds, ?_⟩⟩
    rw [step_of_rsp s _ he] at hstep
    cases hstep
    rfl
  | data =>
    rcases takeEnabled_or_emitOctet hinv hp with ht | ⟨v, hv⟩
    · rw [owed_takeStep ht, List.cons_append] at h
      obtain ⟨rfl, rfl⟩ := List.cons.inj h
      refine ⟨ht, fun t he hstep => ⟨src.tail, cmds, ?_⟩⟩
      rw [step_of_src s _ he] at hstep
      cases hstep
      rfl
    · rw [owed_emitStep hv, List.cons_append] at h
      obtain ⟨rfl, rfl⟩ := List.cons.inj h
      refine ⟨⟨hv, rfl⟩, fun t he hstep => ⟨src, cmds, ?_⟩⟩
      rw [step_of_out s _ _ he] at hstep
      cases hstep
      rfl

theorem State.Expects.idle_of_nil {s : State} (hinv : s.ctx.Inv) (h : s.Expects []) : s.ctx.phase = .idle := by
  obtain ⟨src, cmds, h⟩ := h
  exact (owed_eq_nil_iff hinv src).mp (List.append_eq_nil_iff.mp h.symm).1

theorem beats_of_serves {bs : List Beat} {ps rest : List Pins} {s : State} (hs : s.resetSeen = true)
    (hinv : s.ctx.Inv) (hinputs : s.inputs = ps ++ rest) (hexp : s.Expects bs) (h : serves bs ps = true) :
    beats ps.length s = bs ∧ ∃ t, run ps.length s = .next t ∧ t.ctx.phase = .idle ∧ t.inputs = rest := by
  induction ps generalizing s bs with
  | nil =>
    cases bs with
    | nil => exact ⟨rfl, s, rfl, hexp.idle_of_nil hinv, hinputs⟩
    | cons b bs => cases h
  | cons p ps ih =>
    cases bs with
    | nil => cases h
    | cons b bs =>
      obtain ⟨hready, hnext⟩ := hexp.head hinv
      have hpins : s.pins = p := by rw [State.pins, hinputs]; rfl
      have htail : s.inputs.tail = ps ++ rest := by rw [hinputs]; rfl
      rw [serves] at h
      split at h
      next hans =>
        obtain ⟨t, hstep, ht, hrest⟩ := exists_step (.inl hs)
        have he := edge_of_answers hs hready (hpins ▸ hans)
        rw [List.length_cons, beats_succ_of_beat _ s t b he hstep, run_succ _ s t hstep]
        obtain ⟨hbeats, hrun⟩ := ih ht (step_keeps_inv hinv hstep) (hrest.trans htail) (hnext t he hstep) h
        exact ⟨congrArg _ hbeats, hrun⟩
      next =>
        obtain ⟨hdec, hserves⟩ := Bool.and_eq_true_iff.mp h
        have he := edge_of_declines hs hready (hpins ▸ hdec)
        rw [List.length_cons, beats_succ_of_waiting _ s he, run_succ _ s _ (step_of_waiting s he)]
        exact ih hs hinv htail hexp hserves

/-- Settles O47: in IDLE the block expects the transactions of any commands. -/
theorem servedCommandsDeliverExec : Obligations.ServedCommandsDeliverExec := by
  intro cmds ps rest s hs hp hinputs h
  exact beats_of_serves hs (inv_of_idle hp) hinputs ⟨[], cmds, by rw [owed_of_idle hp]; rfl⟩ h

end Sys2Proof.Machine
end

/-! SUPPORT and PROOF. Channels that wait (spec/10_state.md R25, spec/70_reset_and_hazards.md R218, R221): what a raised
output keeps, what an absent requester leaves, what the duty on SRC gives, and the statements these settle. -/

section
namespace Sys2Proof.Machine

/-! ### An edge without a beat -/

/-- Where the open channel has no beat, the context stays (R27, R221). -/
theorem ctx_of_step_of_no_beat {s t : State} (hs : s.resetSeen = true) (hr : s.pins.rst = false)
    (hb : beatAt s.ctx s.pins = none) (h : step s = .next t) : t.ctx = s.ctx := by
  rw [step_of_waiting s (edge_of_beatAt_none hs hr hb)] at h
  cases h
  rfl

theorem beatAt_eq_cmdBeat {c : Context} (h : c.phase = .idle) (p : Pins) : beatAt c p = cmdBeat c p := by
  simp [beatAt_of_idle c p h, cmdBeat, Context.outputs, h]

theorem beatAt_eq_rspBeat {c : Context} (h : c.phase = .resp) (p : Pins) : beatAt c p = rspBeat c p := by
  simp [beatAt_of_resp c p h, rspBeat, Context.outputs, h]

theorem beatAt_eq_srcBeat {c : Context} (h : c.takeEnabled = true) (p : Pins) : beatAt c p = srcBeat c p := by
  simp [beatAt_of_takeEnabled c p h, srcBeat, Context.outputs, h]

theorem beatAt_eq_outBeat {c : Context} {v : Octet} (h : c.emitOctet = some v) (p : Pins) :
    beatAt c p = outBeat c p := by
  simp [beatAt_of_emitOctet c p v h, outBeat, h]

/-- Settles O34: a channel that is raised is the only open one, so without its beat the context, of which the outputs
are functions, stays. -/
theorem raisedOutputsStayUntilTheirBeat : Obligations.RaisedOutputsStayUntilTheirBeat := by
  intro s t hs hr h
  have hkeep (hb : beatAt s.ctx s.pins = none) : t.ctx = s.ctx := ctx_of_step_of_no_beat hs hr hb h
  refine ⟨fun hraised hb => ?_, fun hraised hb => ?_, fun hraised hb => ?_, fun hraised hb => ?_⟩
  · rwa [hkeep ((beatAt_eq_cmdBeat (of_decide_eq_true hraised) _).trans hb)]
  · rw [hkeep ((beatAt_eq_rspBeat (of_decide_eq_true hraised) _).trans hb)]
    exact ⟨hraised, rfl, rfl, rfl⟩
  · rwa [hkeep ((beatAt_eq_srcBeat hraised _).trans hb)]
  · obtain ⟨v, hv⟩ := Option.isSome_iff_exists.mp hraised
    rw [hkeep ((beatAt_eq_outBeat hv _).trans hb)]
    exact ⟨hraised, rfl, rfl⟩

/-! ### A requester that is not there -/

/-- While no sample makes a beat, edges only use up samples (R221). -/
theorem run_of_no_beat {k : Nat} {s : State} (hs : s.resetSeen = true) (hlen : k ≤ s.inputs.length)
    (h : ∀ p ∈ s.inputs.take k, p.rst = false ∧ beatAt s.ctx p = none) :
    run k s = .next { s with inputs := s.inputs.drop k } ∧ beats k s = [] := by
  induction k generalizing s with
  | zero => exact ⟨rfl, rfl⟩
  | succ k ih =>
    obtain ⟨⟨hr, hb⟩, hlen', h'⟩ := samples_succ hlen h
    have he := edge_of_beatAt_none hs hr hb
    rw [run_succ k s _ (step_of_waiting s he), beats_succ_of_waiting k s he, ← List.drop_tail]
    exact ih (s := s.tick) hs hlen' h'

/-- Settles O43: in each of the three cases the block is ready on one channel, whose other side never comes. -/
theorem brokenDutyLeavesTheBlockWaiting : Obligations.BrokenDutyLeavesTheBlockWaiting := by
  intro s k hs hlen hrst hbroken
  obtain ⟨hphase, hnone⟩ : s.ctx.phase ≠ .idle ∧ ∀ p ∈ s.inputs.take k, beatAt s.ctx p = none := by
    rcases hbroken with ⟨hp, hsilent⟩ | ⟨ht, hsilent⟩ | ⟨he, hsilent⟩
    · exact ⟨by simp [hp], fun p hmem => by simp [beatAt_of_resp _ p hp, hsilent p hmem]⟩
    · obtain ⟨hdata, -⟩ := (takeEnabled_iff _).mp ht
      exact ⟨by simp [hdata], fun p hmem => by simp [beatAt_of_takeEnabled _ p ht, hsilent p hmem]⟩
    · obtain ⟨v, hv⟩ := Option.ne_none_iff_exists'.mp he
      obtain ⟨hdata, -⟩ := (emitOctet_eq_some_iff _ v).mp hv
      exact ⟨by simp [hdata], fun p hmem => by simp [beatAt_of_emitOctet _ p v hv, hsilent p hmem]⟩
  obtain ⟨hrun, hbeats⟩ := run_of_no_beat hs hlen fun p hmem => ⟨hrst p hmem, hnone p hmem⟩
  exact ⟨hrun, hbeats, decide_eq_false hphase⟩

/-! ### The duty on SRC -/

/-- There is an SRC beat where the octet on offer meets a block that waits for one (R24, R32). -/
theorem srcBeat_isSome_iff {c : Context} {p : Pins} :
    (srcBeat c p).isSome = true ↔ p.srcValid = true ∧ c.takeEnabled = true := by
  rw [srcBeat, Option.isSome_ite, Bool.and_eq_true]
  rfl

theorem srcStands_iff {s : State} (hr : s.pins.rst = false) :
    s.srcStands = true ↔ s.pins.srcValid = true ∧ ¬ (srcBeat s.ctx s.pins).isSome = true := by
  simp [State.srcStands, hr]

/-- The two halves of the duty (R218): when an octet may be on offer, and that an offer not taken stays. -/
theorem srcDuty_iff (s : State) :
    s.srcDuty = true ↔
      (s.pins.srcValid = true → s.ctx.phase = .data ∧
        s.ctx.o.toNat + (if s.ctx.hold.isSome then 1 else 0) < min s.ctx.L.toNat s.ctx.nbytes.toNat) ∧
      (s.srcStands = true → s.nextPins.srcValid = true ∧ s.nextPins.srcData = s.pins.srcData) := by
  simp only [State.srcDuty, Bool.and_eq_true, Bool.or_eq_true, Bool.not_eq_true', decide_eq_true_eq,
    ← Bool.not_eq_true, ← imp_iff_not_or]

/-- The ports after a step are those of the following edge. -/
theorem pins_eq_nextPins {s t : State} (h : t.inputs = s.inputs.tail) : t.pins = s.nextPins := by
  rw [State.pins, h]
  rfl

/-- An octet that stands on offer under the duty has its turn still to come: the data phase does not end before it
(R34, R218). -/
theorem phase_of_srcStands {s t : State} (hr : s.pins.rst = false) (hduty : s.srcDuty = true)
    (hstands : s.srcStands = true) (h : step s = .next t) : t.ctx.phase = .data := by
  obtain ⟨hvalid, hbeat⟩ := (srcStands_iff hr).mp hstands
  obtain ⟨hdata, hroom⟩ := ((srcDuty_iff s).mp hduty).1 hvalid
  have htake : ¬ s.ctx.takeEnabled = true := fun ht => hbeat (srcBeat_isSome_iff.mpr ⟨hvalid, ht⟩)
  rcases step_cases s t h with ⟨hr', -⟩ | ⟨-, -, ⟨-, -, rfl⟩ | ⟨-, hp, -⟩ | ⟨-, hp, -⟩ | ⟨-, ht, -⟩ |
    ⟨v, -, -, -, rfl⟩⟩
  · rw [hr] at hr'; cases hr'
  · exact hdata
  · rw [hdata] at hp; cases hp
  · rw [hdata] at hp; cases hp
  · exact absurd ht htake
  · have hheld : s.ctx.hold.isSome = true := by
      cases hhold : s.ctx.hold with
      | some w => rfl
      | none => exact absurd ((takeEnabled_iff _).mpr ⟨hdata, hhold, by simpa [hhold] using hroom⟩) htake
    have hlast : ¬ s.ctx.isLast = true := by
      rw [isLast_iff]
      rw [if_pos hheld] at hroom
      omega
    rw [State.emitStep_phase, if_neg hlast, hdata]

/-- The octet that an edge takes is the one on offer at an SRC beat. -/
theorem takenOctets_of_edge {s : State} {b : Beat} (he : s.edge = .beat b)
    (hbeat : ¬ (srcBeat s.ctx s.pins).isSome = true) : takenOctets [b] = [] := by
  obtain ⟨-, -, hb⟩ := (edge_eq_beat_iff s b).mp he
  rcases beatAt_cases _ _ _ hb with ⟨-, -, rfl⟩ | ⟨-, -, rfl⟩ | ⟨ht, hv, -⟩ | ⟨v, -, -, rfl⟩
  · rfl
  · rfl
  · exact absurd (srcBeat_isSome_iff.mpr ⟨hv, ht⟩) hbeat
  · rfl

theorem takenOctets_beats_succ {k : Nat} {s t : State} (hlive : s.LiveFor (k + 1)) (h : step s = .next t) :
    takenOctets (beats (k + 1) s) =
      (if (srcBeat s.ctx s.pins).isSome then [s.pins.srcData] else []) ++ takenOctets (beats k t) := by
  split
  next hbeat =>
    obtain ⟨hv, ht⟩ := srcBeat_isSome_iff.mp hbeat
    rw [beats_succ_of_beat k s t _ (edge_of_take hlive.1 hlive.rst ht hv) h]
    rfl
  next hbeat =>
    rcases hlive.step_cases with ⟨he, hstep, -⟩ | ⟨b, u, he, -⟩
    · cases hstep.symm.trans h
      rw [beats_succ_of_waiting k s he, List.nil_append]
    · rw [beats_succ_of_beat k s t b he h, ← takenOctets_of_edge he hbeat]
      exact takenOctets_append [b] (beats k t)

theorem keepsSrcDuty_succ {k : Nat} {s t : State} (h : step s = .next t) :
    keepsSrcDuty (k + 1) s = true ↔ s.srcDuty = true ∧ keepsSrcDuty k t = true := by
  simp only [keepsSrcDuty, h, Bool.and_eq_true]

theorem offeredOctets_succ {k : Nat} {s t : State} (h : step s = .next t) (standing : Bool) :
    offeredOctets standing (k + 1) s =
      (if s.pins.srcValid && !standing then [s.pins.srcData] else []) ++ offeredOctets s.srcStands k t := by
  simp only [offeredOctets, h]

/-- An octet on offer began to be offered at this edge or stands from before. -/
theorem offered_of_standing {standing valid : Bool} (h : standing = true → valid = true) (v : Octet) :
    (if standing then [v] else []) ++ (if valid && !standing then [v] else []) = if valid then [v] else [] := by
  cases standing with
  | true => simp [h rfl]
  | false => simp

/-- An octet on offer is taken at this edge or stands, under the duty, at the following one. -/
theorem taken_or_stands {s t : State} (hr : s.pins.rst = false) (hinputs : t.inputs = s.inputs.tail)
    (hstays : s.srcStands = true → s.nextPins.srcData = s.pins.srcData) :
    (if (srcBeat s.ctx s.pins).isSome then [s.pins.srcData] else []) ++
      (if s.srcStands then [t.pins.srcData] else []) = if s.pins.srcValid then [s.pins.srcData] else [] := by
  by_cases hstands : s.srcStands = true
  · obtain ⟨hvalid, hbeat⟩ := (srcStands_iff hr).mp hstands
    rw [if_neg hbeat, if_pos hstands, if_pos hvalid, pins_eq_nextPins hinputs, hstays hstands, List.nil_append]
  · rw [if_neg hstands, List.append_nil]
    rw [srcStands_iff hr, not_and, not_not] at hstands
    exact if_congr ⟨fun hbeat => (srcBeat_isSome_iff.mp hbeat).1, hstands⟩ rfl rfl

/-- The octets taken up to an IDLE state are those offered, the one that stands on offer at the start included: an
offer is taken at its edge, or stands under the duty, in a data phase that cannot end before it is taken. -/
theorem takenOctets_of_srcDuty {k : Nat} {s t : State} {standing : Bool} (hlive : s.LiveFor k)
    (hstanding : standing = true → s.pins.srcValid = true ∧ s.ctx.phase ≠ .idle) (hduty : keepsSrcDuty k s = true)
    (hrun : run k s = .next t) (hidle : t.ctx.phase = .idle) :
    (if standing then [s.pins.srcData] else []) ++ offeredOctets standing k s = takenOctets (beats k s) := by
  induction k generalizing s standing with
  | zero =>
    cases hrun
    cases standing with
    | true => exact absurd hidle (hstanding rfl).2
    | false => rfl
  | succ k ih =>
    obtain ⟨u, h, -, hinputs⟩ := exists_step (.inl hlive.1)
    obtain ⟨hnow, hlater⟩ := (keepsSrcDuty_succ h).mp hduty
    obtain ⟨-, hstays⟩ := (srcDuty_iff s).mp hnow
    rw [run_succ k s u h] at hrun
    have hstanding' (hst : s.srcStands = true) : u.pins.srcValid = true ∧ u.ctx.phase ≠ .idle := by
      rw [pins_eq_nextPins hinputs, phase_of_srcStands hlive.rst hnow hst h]
      exact ⟨(hstays hst).1, nofun⟩
    rw [offeredOctets_succ h, takenOctets_beats_succ hlive h, ← ih (hlive.next h) hstanding' hlater hrun,
      ← List.append_assoc, ← List.append_assoc, offered_of_standing fun hst => (hstanding hst).1,
      taken_or_stands hlive.rst hinputs fun hst => (hstays hst).2]

/-- Settles O49: in IDLE no octet stands on offer yet. -/
theorem srcDutyLosesNoOctet : Obligations.SrcDutyLosesNoOctet :=
  fun _ _ _ hs _ hrst hduty hrun hidle => takenOctets_of_srcDuty (standing := false) ⟨hs, hrst⟩ nofun hduty hrun hidle

end Sys2Proof.Machine
end

/-! SUPPORT and PROOF. What a command leaves live (spec/10_state.md R28, spec/43_encode.md R140, spec/44_decode.md
R160), its frame, its error and its response (R29, spec/60_exceptions.md R181 to R191), the offer that is stale when a
data phase begins, and FULLMASK in 33 bits (spec/41_fullmask.md section 2), with the statements these settle. -/

section
namespace Sys2Proof.Machine

/-! ### What ENCODE and DECODE leave live -/

/-- What a decision of ENCODE or DECODE with the operand words `a` and `b` records for a data phase: nothing where
none follows (R28, R30). -/
def Decision.toMove (a b : Word) : Decision → Option (BitVec 31 × BitVec 32 × BitVec 29)
  | .respond v => if v = 0#32 then none else some (a.setWidth 31, b, v.setWidth 29)
  | .raise _ => none

theorem State.concludeData_view (s : State) (a b : Word) (d : Decision) :
    (s.concludeData a b d).ctx.view = .resp (decisionWord d) (d.toMove a b) := by
  cases d with
  | raise e => rfl
  | respond v =>
    rw [State.concludeData_respond, Decision.toMove]
    split
    next hzero => rw [hzero, State.respondData_zero, State.respond_view]; rfl
    next hne => rw [State.respondData_of_ne s a b v hne]; rfl

/-- What is live after a CMD beat depends on its command word alone (R28). -/
theorem State.accepted_view (s : State) (op : OpCode) (a b : Word) :
    (s.accepted op a b).ctx.view = .resp (decisionWord (decision op a b))
      (if op = 3#4 ∨ op = 4#4 then (decision op a b).toMove a b else none) := by
  unfold State.accepted
  split
  · exact s.concludeData_view a b _
  · exact s.conclude_view _

/-- An instruction that ends as ENCODE and DECODE do uses up the sample and leaves `resetSeen`. -/
theorem kept_of_exec_concludeData {i : Instr} {s : State} {a b : Word} {d : Decision}
    (h : exec i s = .next (s.concludeData a b d)) :
    ∀ t, exec i s = .next t → t.resetSeen = s.resetSeen ∧ t.inputs = s.inputs.tail := by
  intro t ht
  cases h.symm.trans ht
  obtain ⟨-, -, hkept⟩ := s.answers_concludeData a b d
  exact hkept

/-- What an instruction that ends as ENCODE and DECODE do leaves live. -/
theorem exists_view_of_exec_concludeData {i : Instr} {s : State} {a b : Word} {d : Decision}
    (h : exec i s = .next (s.concludeData a b d)) :
    ∃ t, exec i s = .next t ∧ t.ctx.view = .resp (decisionWord d) (d.toMove a b) :=
  ⟨_, h, s.concludeData_view a b d⟩

/-- A count other than 0 starts a data phase, whose count and byte count are recorded without loss (R28, R30). -/
theorem exists_data_phase_of_exec {i : Instr} {s : State} {a b v : Word} (ha : a.getLsbD 31 = false)
    (hne : u32 a ≠ 0) (hv : v = BitVec.ofNat 32 (byteCount (u32 a)))
    (h : exec i s = .next (s.concludeData a b (.respond v))) :
    ∃ t N nbytes, exec i s = .next t ∧ t.ctx.view = .resp (successWord v) (some (N, b, nbytes)) ∧
      N.toNat = u32 a ∧ nbytes.toNat = byteCount (u32 a) := by
  have hval : v.toNat = byteCount (u32 a) := by rw [hv, toNat_byteCount_word a ha]
  have hv0 : v ≠ 0#32 := by
    rintro rfl
    exact hne ((byteCount_eq_zero _).mp hval.symm)
  refine ⟨_, a.setWidth 31, v.setWidth 29, h, ?_, toNat_setWidth_legal_count ha, ?_⟩
  · rw [State.concludeData_view, Decision.toMove, if_neg hv0]
    rfl
  · rw [BitVec.toNat_setWidth, hval]
    exact Nat.mod_eq_of_lt (byteCount_lt _ (u32_lt_of_getLsbD a ha))

theorem exec_encode_of_decision {a : Word} {d : Decision} (hd : decideEncode a = d) (b : Word) (s : State) :
    exec (.encode a b) s = .next (s.concludeData a b d) := hd ▸ rfl

theorem exec_decode_of_decision {a b : Word} {d : Decision} (hd : decideDecode a b = d) (s : State) :
    exec (.decode a b) s = .next (s.concludeData a b d) := hd ▸ rfl

/-- Settles O20: the decision phase splits at the sign of the count, and the success at the count 0. -/
theorem encodeStartsDataPhaseOrInvalidBitCount : Obligations.EncodeStartsDataPhaseOrInvalidBitCount := by
  refine fun a b s _ => ⟨kept_of_exec_concludeData (exec_encode_of_decision rfl b s), fun hneg => ?_, fun hzero => ?_,
    fun hlegal hne => ?_⟩
  · have hdec : decideEncode a = .raise .invalidBitCount :=
      (decideEncode_eq_decideBytecount a).trans (decideBytecount_of_negative hneg)
    exact exists_view_of_exec_concludeData (exec_encode_of_decision hdec b s)
  · obtain rfl := u32_eq_zero_iff.mp hzero
    exact exists_view_of_exec_concludeData (exec_encode_of_decision (decideEncode_of_legal (by decide)) b s)
  · exact exists_data_phase_of_exec hlegal hne rfl (exec_encode_of_decision (decideEncode_of_legal hlegal) b s)

/-- Settles O21: the decision phase splits at the sign of the count, then at the buffer size, and the success at the
count 0. -/
theorem decodeStartsDataPhaseOrRaises : Obligations.DecodeStartsDataPhaseOrRaises := by
  refine fun a b s _ => ⟨kept_of_exec_concludeData (exec_decode_of_decision rfl s), fun hneg => ?_,
    fun hlegal hsize => ?_, fun hzero hb => ?_, fun hlegal hne hsize => ?_⟩
  · exact exists_view_of_exec_concludeData (exec_decode_of_decision (decideDecode_of_negative hneg b) s)
  · exact exists_view_of_exec_concludeData (exec_decode_of_decision (decideDecode_of_mismatch hlegal hsize) s)
  · obtain rfl := u32_eq_zero_iff.mp hzero
    subst hb
    exact exists_view_of_exec_concludeData
      (exec_decode_of_decision (decideDecode_of_match (by decide) (by decide)) s)
  · have hb := ofNat_byteCount_of_match hsize
    have hdec : decideDecode a b = .respond b :=
      (decideDecode_of_match hlegal hsize).trans (congrArg Decision.respond hb)
    exact exists_data_phase_of_exec hlegal hne hb.symm (exec_decode_of_decision hdec s)

/-! ### Success and the frame of every instruction -/

/-- What no command writes: `o`, `hold` and, without a data phase, the fields of one (R28). -/
theorem State.accepted_frame (s : State) (op : OpCode) (a b : Word) :
    (s.accepted op a b).ctx.o = s.ctx.o ∧ (s.accepted op a b).ctx.hold = s.ctx.hold ∧
      ((s.accepted op a b).ctx.go = false → (s.accepted op a b).ctx.N = s.ctx.N ∧
        (s.accepted op a b).ctx.L = s.ctx.L ∧ (s.accepted op a b).ctx.nbytes = s.ctx.nbytes) := by
  unfold State.accepted
  cases hdec : decision op a b with
  | raise e => split <;> exact ⟨rfl, rfl, fun _ => ⟨rfl, rfl, rfl⟩⟩
  | respond v =>
    split
    · refine ⟨s.respondData_o a b v, s.respondData_hold a b v, fun hgo => ?_⟩
      obtain rfl : v = 0#32 := by simpa using hgo
      exact ⟨rfl, rfl, rfl⟩
    · exact ⟨rfl, rfl, fun _ => ⟨rfl, rfl, rfl⟩⟩

/-- The decision phase raises an error exactly outside the legal range of R83. -/
theorem wellFormed_iff (i : Instr) : i.wellFormed = true ↔ ¬ ∃ e, decision i.opcode i.a i.b = .raise e := by
  cases i with
  | bitwidth a b =>
    change true = true ↔ ¬ ∃ e, decideBitwidth a = .raise e
    simp [decideBitwidth_ne_raise]
  | fullmask a b =>
    change decide (0 ≤ s32 a ∧ s32 a ≤ 32) = true ↔ ¬ ∃ e, decideFullmask a = .raise e
    simp only [decideFullmask_eq_raise_iff, exists_eq_left, u32_gt_32_iff, decide_eq_true_eq]
    omega
  | bytecount a b =>
    change decide (0 ≤ s32 a) = true ↔ ¬ ∃ e, decideBytecount a = .raise e
    simp only [decideBytecount_eq_raise_iff, exists_eq_left, getLsbD_31_iff_s32_neg, decide_eq_true_eq, not_lt]
  | encode a b =>
    change decide (0 ≤ s32 a) = true ↔ ¬ ∃ e, decideEncode a = .raise e
    simp only [decideEncode_eq_decideBytecount, decideBytecount_eq_raise_iff, exists_eq_left,
      getLsbD_31_iff_s32_neg, decide_eq_true_eq, not_lt]
  | decode a b =>
    change decide (0 ≤ s32 a ∧ u32 b = byteCount (u32 a)) = true ↔ ¬ ∃ e, decideDecode a b = .raise e
    simp only [decideDecode_eq_raise_iff, exists_or, exists_eq_left, ← Bool.not_eq_true, getLsbD_31_iff_s32_neg,
      decide_eq_true_eq]
    omega

/-- Settles O22: every instruction leaves `State.accepted`, whose `err` tells whether its decision raised. -/
theorem successExactlyOnLegalOperands : Obligations.SuccessExactlyOnLegalOperands := by
  intro i s
  obtain ⟨hphase, hrw, hseen, hinputs⟩ := s.answers_accepted i.opcode i.a i.b
  obtain ⟨ho, hhold, hdead⟩ := s.accepted_frame i.opcode i.a i.b
  refine ⟨_, exec_eq_accepted i s, ?_, hphase, ho, hhold, hdead, hseen, hinputs⟩
  rw [hrw, ← Bool.not_eq_true, rspErr_decisionWord_iff, wellFormed_iff]

/-! ### The response is taken -/

theorem view_eq_idle_iff {c : Context} : c.view = .idle ↔ c.phase = .idle := by
  refine ⟨fun hview => ?_, view_of_idle⟩
  cases hp : c.phase with
  | idle => rfl
  | resp => simp [Context.view, hp] at hview
  | data => simp [Context.view, hp] at hview

/-- In RESP a response that the requester takes is an RSP beat (R29). -/
theorem edge_of_response {s : State} (hs : s.resetSeen = true) (hr : s.pins.rst = false) (hp : s.ctx.phase = .resp)
    (hv : s.pins.rspReady = true) : s.edge = .beat (.rsp s.ctx.rw) :=
  edge_of_beatAt hs hr (by rw [beatAt_of_resp _ _ hp, if_pos hv])

/-- Settles O29: the edge is the RSP beat, and the step splits at `go`. -/
theorem respondStartsDataPhaseOrEnds : Obligations.RespondStartsDataPhaseOrEnds := by
  intro s hs hr hp hv
  have he := edge_of_response hs hr hp hv
  refine ⟨s.respondStep, he, step_of_rsp s _ he, hs, rfl, fun hgo => ?_, fun hgo => ?_⟩
  · rw [State.respondStep_of_go s hgo]
    rfl
  · rw [State.respondStep_of_not_go s hgo]
    exact view_of_idle rfl

/-- A command that raises an error leaves the state of `raise`, whichever operation it selects (R181). -/
theorem State.accepted_of_raise {op : OpCode} {a b : Word} {e : ErrorCode} (h : decision op a b = .raise e)
    (s : State) : s.accepted op a b = s.raise e := by
  rw [State.accepted, h]
  split <;> rfl

/-- Settles O28: `raise` leaves a response without a data phase, which is taken as any other or waits. -/
theorem raisedErrorIsOneResponseAndNoData : Obligations.RaisedErrorIsOneResponseAndNoData := by
  intro s t e he hdec hstep
  rw [step_of_cmd s _ he, acceptCommand_command, State.accepted_of_raise hdec] at hstep
  cases hstep
  obtain ⟨outputs_of_idle, outputs_of_resp, -⟩ := outputsFollowPhase
  obtain ⟨-, -, hsrc, hout, herr, hcode, hdata⟩ := outputs_of_resp (s.raise e).ctx rfl
  refine ⟨rfl, herr.trans (congrArg some (rspErr_errorWord e)), hcode.trans (congrArg some (rspCode_errorWord e)),
    hdata.trans (congrArg some (rspData_errorWord e)), hsrc, hout,
    fun u hu hs hr => ⟨fun hready => ?_, fun hready => ?_⟩⟩
  · obtain ⟨x, hedge, hx, -, -, -, hend⟩ := respondStartsDataPhaseOrEnds u hs hr (by rw [hu]; rfl) hready
    have hidle := hend (by rw [hu]; rfl)
    obtain ⟨hcmd, -⟩ := outputs_of_idle x.ctx (view_eq_idle_iff.mp hidle)
    exact ⟨x, hu ▸ hedge, hx, hidle, hcmd⟩
  · have hb : beatAt u.ctx u.pins = none := by rw [hu, beatAt_of_resp _ _ rfl, hready]; rfl
    have hwait := edge_of_beatAt_none hs hr hb
    exact ⟨u.tick, hwait, step_of_waiting u hwait, hu⟩

/-! ### A stale offer -/

/-- Where the response has announced octets and the extent is not 0, the data phase begins with TAKE (R29, R32). -/
theorem takeEnabled_respondStep {s : State} (hgo : s.ctx.go = true) (hL : s.ctx.L ≠ 0#32)
    (hbytes : s.ctx.nbytes ≠ 0#29) : s.respondStep.ctx.takeEnabled = true := by
  have hL' : 0 < s.ctx.L.toNat := Nat.pos_of_ne_zero fun h => hL (BitVec.eq_of_toNat_eq h)
  have hbytes' : 0 < s.ctx.nbytes.toNat := Nat.pos_of_ne_zero fun h => hbytes (BitVec.eq_of_toNat_eq h)
  rw [State.respondStep_of_go s hgo]
  exact (takeEnabled_iff _).mpr ⟨rfl, rfl, Nat.lt_min.mpr ⟨hL', hbytes'⟩⟩

/-- Settles O50: the edge of the response leaves `o = 0` and nothing held, so the next one takes octet 0. -/
theorem staleOfferIsTakenAsFirstOctet : Obligations.StaleOfferIsTakenAsFirstOctet := by
  intro s p q rest hs hp hgo hL hbytes hinputs hpr hprsp hqr hqsrc
  have hpins : s.pins = p := by rw [State.pins, hinputs]; rfl
  have hpins' : s.respondStep.pins = q := by rw [State.pins, State.respondStep_inputs, hinputs]; rfl
  have he := edge_of_response hs (hpins ▸ hpr) hp (hpins ▸ hprsp)
  have he' := edge_of_take (s := s.respondStep) hs (hpins' ▸ hqr) (takeEnabled_respondStep hgo hL hbytes)
    (hpins' ▸ hqsrc)
  have hstep := step_of_rsp s _ he
  have hstep' := step_of_src s.respondStep _ he'
  rw [beats_succ_of_beat 1 s _ _ he hstep, beats_succ_of_beat 0 _ _ _ he' hstep', run_succ 1 s _ hstep,
    run_succ 0 _ _ hstep', hpins', State.respondStep_of_go s hgo]
  exact ⟨rfl, _, rfl, rfl, rfl, rfl⟩

/-! ### FULLMASK in 33 bits -/

/-- Settles O6: 33 bits hold `2^k` and the difference for every width up to 32, and narrowing keeps 32 bits of it. -/
theorem fullMaskThrough33BitIntermediate : Obligations.FullMaskThrough33BitIntermediate := by
  intro k hk
  have hpos : 0 < 2 ^ k := Nat.two_pow_pos k
  have hle : 2 ^ k ≤ 2 ^ 32 := Nat.pow_le_pow_right (by decide) hk
  apply BitVec.eq_of_toNat_eq
  simp only [Config.imedW, fullMask, BitVec.toNat_setWidth, BitVec.toNat_sub, BitVec.toNat_shiftLeft,
    BitVec.toNat_ofNat, Nat.shiftLeft_eq]
  omega

end Sys2Proof.Machine
end

/-! SUPPORT and PROOF. What shows of a state (spec/10_state.md R25, R26, spec/70_reset_and_hazards.md R212, R216):
states with the same live context behave alike, the CMD ports are dead in a transaction, and the statements these
settle. -/

section
namespace Sys2Proof.Machine

/-! ### The CMD ports -/

/-- Outside IDLE the CMD ports make no beat and are part of none (R25, R28). -/
theorem beatAt_cmd_ports {c : Context} (h : c.phase ≠ .idle) (p : Pins) (valid : Bool) (op : OpCode) (b a : Word) :
    beatAt c { p with cmdValid := valid, cmdOp := op, cmdB := b, cmdA := a } = beatAt c p := by
  rw [beatAt, beatAt, cmdBeat_of_not_idle h, cmdBeat_of_not_idle h]
  rfl

/-- Settles O35: the edge is the same, and a step reads a sample through its edge alone. -/
theorem commandPortsDeadDuringTransaction : Obligations.CommandPortsDeadDuringTransaction := fun _ p _ _ _ _ _ h =>
  step_eq_of_edge_eq (edge_congr rfl rfl fun _ _ => beatAt_cmd_ports h p _ _ _ _)

/-! ### Contexts with the same live fields -/

theorem view_of_resp {c : Context} (h : c.phase = .resp) :
    c.view = .resp c.rw (if c.go then some (c.N, c.L, c.nbytes) else none) := by
  simp [Context.view, h]

/-- The phase a view is one of. -/
def View.phase : View → Phase
  | .idle => .idle
  | .resp _ _ => .resp
  | .data _ _ _ _ _ => .data

theorem phase_view (c : Context) : c.view.phase = c.phase := by
  cases hp : c.phase with
  | idle => rw [view_of_idle hp]; rfl
  | resp => rw [view_of_resp hp]; rfl
  | data => rw [view_of_data hp]; rfl

/-- The context with other values of `rw` and `go`, the two fields that are dead in DATA (R26). -/
def Context.withResponse (c : Context) (rw : ResponseWord) (go : Bool) : Context := { c with rw := rw, go := go }

theorem Context.withResponse_phase (c : Context) (rw : ResponseWord) (go : Bool) :
    (c.withResponse rw go).phase = c.phase := rfl

theorem Context.withResponse_takeEnabled (c : Context) (rw : ResponseWord) (go : Bool) :
    (c.withResponse rw go).takeEnabled = c.takeEnabled := rfl

theorem Context.withResponse_emitOctet (c : Context) (rw : ResponseWord) (go : Bool) :
    (c.withResponse rw go).emitOctet = c.emitOctet := rfl

theorem Context.withResponse_isLast (c : Context) (rw : ResponseWord) (go : Bool) :
    (c.withResponse rw go).isLast = c.isLast := rfl

/-- What two contexts with the same view share, phase by phase (R26). -/
theorem view_eq_cases {c d : Context} (h : c.view = d.view) :
    (c.phase = .idle ∧ d.phase = .idle) ∨
    (c.phase = .resp ∧ d.phase = .resp ∧ c.rw = d.rw ∧
      ((c.go = false ∧ d.go = false) ∨
        (c.go = true ∧ d.go = true ∧ c.N = d.N ∧ c.L = d.L ∧ c.nbytes = d.nbytes))) ∨
    (c.phase = .data ∧ ∃ rw go, d = c.withResponse rw go) := by
  have hphase : c.phase = d.phase := by rw [← phase_view c, h, phase_view]
  cases hp : c.phase with
  | idle => exact .inl ⟨rfl, hphase ▸ hp⟩
  | resp =>
    have hp' : d.phase = .resp := hphase ▸ hp
    rw [view_of_resp hp, view_of_resp hp'] at h
    obtain ⟨hrw, hmove⟩ := View.resp.inj h
    refine .inr (.inl ⟨rfl, hp', hrw, ?_⟩)
    split at hmove
    next hgo =>
      split at hmove
      next hgo' =>
        obtain ⟨hN, hL, hbytes⟩ : c.N = d.N ∧ c.L = d.L ∧ c.nbytes = d.nbytes := by simpa using hmove
        exact .inr ⟨hgo, hgo', hN, hL, hbytes⟩
      next => cases hmove
    next hgo =>
      split at hmove
      next => cases hmove
      next hgo' => exact .inl ⟨Bool.eq_false_iff.mpr hgo, Bool.eq_false_iff.mpr hgo'⟩
  | data =>
    have hp' : d.phase = .data := hphase ▸ hp
    rw [view_of_data hp, view_of_data hp'] at h
    obtain ⟨hN, hL, hbytes, ho, hhold⟩ := View.data.inj h
    exact .inr (.inr ⟨rfl, d.rw, d.go, by rw [Context.withResponse, hp, hN, hL, hbytes, ho, hhold, ← hp']⟩)

/-- The outputs are functions of what is live (R25, R26). -/
theorem outputs_eq_of_view_eq {c d : Context} (h : c.view = d.view) : c.outputs = d.outputs := by
  rcases view_eq_cases h with ⟨hc, hd⟩ | ⟨hc, hd, hrw, -⟩ | ⟨hc, rw, go, rfl⟩
  · simp [Context.outputs, hc, hd, takeEnabled_of_not_data, emitOctet_of_not_data]
  · simp [Context.outputs, hc, hd, hrw, takeEnabled_of_not_data, emitOctet_of_not_data]
  · simp [Context.outputs, hc, Context.withResponse_phase, Context.withResponse_takeEnabled,
      Context.withResponse_emitOctet, Context.withResponse_isLast]

/-- So is the beat that the ports make (R24). -/
theorem beatAt_eq_of_view_eq {c d : Context} (h : c.view = d.view) (p : Pins) : beatAt c p = beatAt d p := by
  rcases view_eq_cases h with ⟨hc, hd⟩ | ⟨hc, hd, hrw, -⟩ | ⟨hc, rw, go, rfl⟩
  · rw [beatAt_of_idle c p hc, beatAt_of_idle d p hd]
  · rw [beatAt_of_resp c p hc, beatAt_of_resp d p hd, hrw]
  · have hidle : c.phase ≠ .idle := by simp [hc]
    have hresp : c.phase ≠ .resp := by simp [hc]
    rw [beatAt, beatAt, cmdBeat_of_not_idle hidle, rspBeat_of_not_resp hresp,
      cmdBeat_of_not_idle (c := c.withResponse rw go) hidle, rspBeat_of_not_resp (c := c.withResponse rw go) hresp]
    rfl

/-! ### States that differ in dead fields alone -/

/-- The states have the same live context, reset history and requester. -/
structure State.Alike (s t : State) : Prop where
  view : s.ctx.view = t.ctx.view
  resetSeen : s.resetSeen = t.resetSeen
  inputs : s.inputs = t.inputs

theorem State.Alike.symm {s t : State} (h : s.Alike t) : t.Alike s := ⟨h.view.symm, h.resetSeen.symm, h.inputs.symm⟩

theorem State.Alike.pins {s t : State} (h : s.Alike t) : s.pins = t.pins := by rw [State.pins, h.inputs]; rfl

theorem State.Alike.edge {s t : State} (h : s.Alike t) : s.edge = t.edge :=
  edge_congr h.resetSeen (by rw [h.pins]) fun _ _ => by rw [h.pins, beatAt_eq_of_view_eq h.view]

theorem State.Alike.tail {s t : State} (h : s.Alike t) : s.inputs.tail = t.inputs.tail := congrArg _ h.inputs

theorem State.Alike.accepted {s t : State} (h : s.Alike t) (op : OpCode) (a b : Word) :
    (s.accepted op a b).Alike (t.accepted op a b) := by
  obtain ⟨-, -, hs, hinputs⟩ := s.answers_accepted op a b
  obtain ⟨-, -, ht, hinputs'⟩ := t.answers_accepted op a b
  exact ⟨by rw [State.accepted_view, State.accepted_view], by rw [hs, ht, h.resetSeen],
    by rw [hinputs, hinputs', h.inputs]⟩

theorem State.Alike.respondStep {s t : State} (h : s.Alike t) (hp : s.ctx.phase = .resp) :
    s.respondStep.Alike t.respondStep := by
  refine ⟨?_, h.resetSeen, h.tail⟩
  rcases view_eq_cases h.view with ⟨hc, -⟩ | ⟨-, -, -, ⟨hgo, hgo'⟩ | ⟨hgo, hgo', hN, hL, hbytes⟩⟩ | ⟨hc, -⟩
  · rw [hp] at hc; cases hc
  · rw [State.respondStep_of_not_go s hgo, State.respondStep_of_not_go t hgo', view_of_idle rfl, view_of_idle rfl]
  · rw [State.respondStep_of_go s hgo, State.respondStep_of_go t hgo', view_of_data rfl, view_of_data rfl]
    simp only [hN, hL, hbytes]
  · rw [hp] at hc; cases hc

/-- In DATA only `rw` and `go` are dead. -/
theorem State.Alike.of_data {s t : State} (h : s.Alike t) (hp : s.ctx.phase = .data) :
    ∃ rw go, t = { s with ctx := s.ctx.withResponse rw go } := by
  rcases view_eq_cases h.view with ⟨hc, -⟩ | ⟨hc, -⟩ | ⟨-, rw, go, hd⟩
  · rw [hp] at hc; cases hc
  · rw [hp] at hc; cases hc
  · exact ⟨rw, go, by rw [← hd, h.resetSeen, h.inputs]⟩

theorem State.Alike.takeStep {s t : State} (h : s.Alike t) (hp : s.ctx.phase = .data) (v : Octet) :
    (s.takeStep v).Alike (t.takeStep v) := by
  obtain ⟨rw, go, rfl⟩ := h.of_data hp
  refine ⟨?_, rfl, rfl⟩
  rw [view_of_data (c := (s.takeStep v).ctx) hp]
  exact (view_of_data (c := (s.takeStep v).ctx.withResponse rw go) hp).symm

theorem view_emitStep {s : State} (hdata : s.ctx.phase = .data) :
    s.emitStep.ctx.view =
      if s.ctx.isLast then .idle else .data s.ctx.N s.ctx.L s.ctx.nbytes s.emitStep.ctx.o none := by
  split
  next hlast => exact view_emitStep_of_last hlast
  next hlast => exact view_emitStep_of_not_last hdata hlast

theorem State.Alike.emitStep {s t : State} (h : s.Alike t) (hp : s.ctx.phase = .data) :
    s.emitStep.Alike t.emitStep := by
  obtain ⟨rw, go, rfl⟩ := h.of_data hp
  refine ⟨?_, rfl, rfl⟩
  rw [view_emitStep hp]
  exact (view_emitStep (s := { s with ctx := s.ctx.withResponse rw go }) hp).symm

/-- One step of two such states leaves two such states: every step reads live fields only. -/
theorem State.Alike.step {s t s' : State} (h : s.Alike t) (hstep : step s = .next s') :
    ∃ t', step t = .next t' ∧ s'.Alike t' := by
  have hedge := h.edge
  rcases step_cases s s' hstep with ⟨hr, rfl⟩ | ⟨-, -, ⟨he, -, rfl⟩ | ⟨he, -, -, hacc⟩ | ⟨he, hp, -, rfl⟩ |
    ⟨he, ht, -, rfl⟩ | ⟨v, he, hv, -, rfl⟩⟩
  · exact ⟨t.resetStep, step_of_rst t (h.pins ▸ hr), rfl, rfl, h.tail⟩
  · exact ⟨t.tick, step_of_waiting t (hedge ▸ he), h.view, h.resetSeen, h.tail⟩
  · rw [acceptCommand_command] at hacc
    cases hacc
    refine ⟨_, ?_, h.accepted _ _ _⟩
    rw [step_of_cmd t _ (hedge ▸ he), h.pins, acceptCommand_command]
  · exact ⟨t.respondStep, step_of_rsp t _ (hedge ▸ he), h.respondStep hp⟩
  · obtain ⟨hp, -⟩ := (takeEnabled_iff _).mp ht
    exact ⟨_, step_of_src t _ (hedge ▸ he), h.takeStep hp _⟩
  · obtain ⟨hp, -⟩ := (emitOctet_eq_some_iff _ v).mp hv
    exact ⟨_, step_of_out t _ _ (hedge ▸ he), h.emitStep hp⟩

/-- Without a RESET in the past or at this edge, the step refuses (R213). -/
theorem step_of_not_live {s : State} (h : ¬ (s.resetSeen = true ∨ s.pins.rst = true)) :
    s.edge = .beforeReset ∧ step s = .refused .beforeReset := by
  rcases edge_cases s with ⟨-, hr⟩ | ⟨he, -⟩ | ⟨-, hs, -⟩
  · exact absurd (.inr hr) h
  · exact ⟨he, by simp only [step, he]⟩
  · exact absurd (.inl hs) h

/-- Two such states have the same beats, and their runs end in two such states. -/
theorem State.Alike.run {k : Nat} {s t : State} (h : s.Alike t) :
    beats k s = beats k t ∧ ∀ s' t', run k s = .next s' → run k t = .next t' → s'.Alike t' := by
  induction k generalizing s t with
  | zero =>
    refine ⟨rfl, fun s' t' hs ht => ?_⟩
    cases hs
    cases ht
    exact h
  | succ k ih =>
    by_cases hlive : s.resetSeen = true ∨ s.pins.rst = true
    · obtain ⟨u, hstep, -⟩ := exists_step hlive
      obtain ⟨u', hstep', hu⟩ := h.step hstep
      obtain ⟨hbeats, hrun⟩ := ih hu
      rw [run_succ k s u hstep, run_succ k t u' hstep']
      exact ⟨by simp only [beats, h.edge, hstep, hstep', hbeats], hrun⟩
    · obtain ⟨-, hstep⟩ := step_of_not_live hlive
      obtain ⟨-, hstep'⟩ := step_of_not_live (h.resetSeen ▸ h.pins ▸ hlive)
      exact ⟨by simp only [beats, h.edge, hstep, hstep'], fun s' t' hrun => by simp [Machine.run, hstep] at hrun⟩

/-- Settles O44: `State.Alike` is kept by runs, and the outputs read live fields only. -/
theorem deadFieldsAreUnobservable : Obligations.DeadFieldsAreUnobservable := by
  intro k s t hview hseen hinputs
  obtain ⟨hbeats, hrun⟩ := State.Alike.run (k := k) ⟨hview, hseen, hinputs⟩
  refine ⟨hbeats, fun s' t' hs ht => ?_⟩
  have hend := hrun s' t' hs ht
  exact ⟨by rw [State.outputs, State.outputs, hend.resetSeen, outputs_eq_of_view_eq hend.view], hend.view⟩

/-- Settles O45: a reset block and any block in IDLE differ in dead fields alone. -/
theorem resetLeavesNoTrace : Obligations.ResetLeavesNoTrace := by
  intro s t c k hr hstep hc
  rw [step_of_rst s hr] at hstep
  cases hstep
  have halike : s.resetStep.Alike { resetSeen := true, ctx := c, inputs := s.inputs.tail } :=
    ⟨by rw [view_of_idle rfl, view_of_idle hc], rfl, rfl⟩
  obtain ⟨hbeats, -⟩ := halike.run (k := k)
  exact hbeats

end Sys2Proof.Machine
end
